-- ==== Sys2Proof/Word.lean ====
section
/-! DEFINITION. The word types of the machine (00_scope.md R7 to R9): registers and immediates as bit vectors of the spec's
widths. -/

namespace Sys2Proof

/-- A byte of memory, a general register, a timer, an 8-bit immediate `NN` (R7 `VWIDTH`). -/
abbrev Byte := BitVec 8

/-- An instruction word, `I`, `PC`, a call-stack entry (R7 `IWIDTH`, `PCWIDTH`). -/
abbrev Word := BitVec 16

/-- A register index: the X or Y field (30_encoding.md R72). -/
abbrev RegIx := BitVec 4

/-- The 4-bit row count `N` of DXYN (30_encoding.md R73). -/
abbrev Nibble := BitVec 4

/-- The 12-bit address field `NNN` (30_encoding.md R72). -/
abbrev Addr12 := BitVec 12

end Sys2Proof
end

