-- ==== Sys2Proof/Syntax.lean ====
section
/-! DEFINITION. The instructions: one constructor per row of spec/opcode_table.json (30_encoding.md R74), the last one for the
unmatched words (R76). -/

namespace Sys2Proof

/-- The instruction set. Operand fields are those of 30_encoding.md R72: `x`, `y` register indices, `nn` a byte, `nnn` a
12-bit address, `n` a nibble. -/
inductive Instr
  /-- 00E0 `CLS` (R190). -/
  | cls
  /-- 00EE `RET` (R123). -/
  | ret
  /-- 1NNN `JP nnn` (R124). -/
  | jp (nnn : Addr12)
  /-- 2NNN `CALL nnn` (R125). -/
  | call (nnn : Addr12)
  /-- 3XNN `SE Vx, nn` (R126). -/
  | seImm (x : RegIx) (nn : Byte)
  /-- 4XNN `SNE Vx, nn` (R127). -/
  | sneImm (x : RegIx) (nn : Byte)
  /-- 5XY0 `SE Vx, Vy` (R128). -/
  | seReg (x y : RegIx)
  /-- 6XNN `LD Vx, nn` (R141). -/
  | ldImm (x : RegIx) (nn : Byte)
  /-- 7XNN `ADD Vx, nn` (R142). -/
  | addImm (x : RegIx) (nn : Byte)
  /-- 8XY0 `LD Vx, Vy` (R143). -/
  | ldReg (x y : RegIx)
  /-- 8XY1 `OR Vx, Vy` (R144). -/
  | orReg (x y : RegIx)
  /-- 8XY2 `AND Vx, Vy` (R145). -/
  | andReg (x y : RegIx)
  /-- 8XY3 `XOR Vx, Vy` (R146). -/
  | xorReg (x y : RegIx)
  /-- 8XY4 `ADD Vx, Vy` (R147). -/
  | addReg (x y : RegIx)
  /-- 8XY5 `SUB Vx, Vy` (R148). -/
  | subReg (x y : RegIx)
  /-- 8XY6 `SHR Vx, Vy` (R149). -/
  | shr (x y : RegIx)
  /-- 8XY7 `SUBN Vx, Vy` (R150). -/
  | subnReg (x y : RegIx)
  /-- 8XYE `SHL Vx, Vy` (R151). -/
  | shl (x y : RegIx)
  /-- 9XY0 `SNE Vx, Vy` (R129). -/
  | sneReg (x y : RegIx)
  /-- ANNN `LD I, nnn` (R171). -/
  | ldI (nnn : Addr12)
  /-- BNNN `JP V0, nnn` (R130); in modern mode the register index is the top nibble of `nnn`. -/
  | jpV0 (nnn : Addr12)
  /-- CXNN `RND Vx, nn` (R152). -/
  | rnd (x : RegIx) (nn : Byte)
  /-- DXYN `DRW Vx, Vy, n` (R191). -/
  | drw (x y : RegIx) (n : Nibble)
  /-- EX9E `SKP Vx` (R217). -/
  | skp (x : RegIx)
  /-- EXA1 `SKNP Vx` (R218). -/
  | sknp (x : RegIx)
  /-- FX07 `LD Vx, DT` (R210). -/
  | ldVxDt (x : RegIx)
  /-- FX0A `LD Vx, K` (R220). -/
  | ldVxK (x : RegIx)
  /-- FX15 `LD DT, Vx` (R211). -/
  | ldDtVx (x : RegIx)
  /-- FX18 `LD ST, Vx` (R212). -/
  | ldStVx (x : RegIx)
  /-- FX1E `ADD I, Vx` (R172). -/
  | addI (x : RegIx)
  /-- FX29 `LD F, Vx` (R173). -/
  | ldF (x : RegIx)
  /-- FX33 `LD B, Vx` (R174). -/
  | ldB (x : RegIx)
  /-- FX55 `LD [I], Vx` (R176). -/
  | storeRegs (x : RegIx)
  /-- FX65 `LD Vx, [I]` (R177). -/
  | loadRegs (x : RegIx)
  /-- Any other word: the no-op of 40_cycle.md R105. It keeps the word, so that no bit is lost. -/
  | unmatched (w : Word)
  deriving DecidableEq, Repr

end Sys2Proof
end

