-- ==== Sys2Proof/WellFormed.lean ====
section
/-! DEFINITION. Which instructions are well formed. The operand fields have the encoding's own widths (30_encoding.md R72), so
the one check is that an `unmatched` word is one of the words of 30_encoding.md R76. -/

namespace Sys2Proof

/-- The unmatched words, space by space as 30_encoding.md R76 lists them. -/
def isUnmatchedWord (w : Word) : Bool :=
  let c : Nat := w.toNat / 0x1000
  let n : Nat := w.toNat % 0x10
  let nn : Nat := w.toNat % 0x100
  if c = 0x0 then !(w.toNat == 0x00E0 || w.toNat == 0x00EE)
  else if c = 0x5 then n != 0
  else if c = 0x8 then n == 0x8 || n == 0x9 || n == 0xA || n == 0xB || n == 0xC || n == 0xD || n == 0xF
  else if c = 0x9 then n != 0
  else if c = 0xE then !(nn == 0x9E || nn == 0xA1)
  else if c = 0xF then
    !(nn == 0x07 || nn == 0x0A || nn == 0x15 || nn == 0x18 || nn == 0x1E || nn == 0x29 || nn == 0x33 || nn == 0x55
      || nn == 0x65)
  else false

/-- `i` is an instruction that some word encodes. -/
def Instr.wellFormed (i : Instr) : Bool :=
  match i with
  | .cls | .ret | .jp _ | .call _ | .seImm _ _ | .sneImm _ _ | .seReg _ _ | .ldImm _ _ | .addImm _ _ | .ldReg _ _
  | .orReg _ _ | .andReg _ _ | .xorReg _ _ | .addReg _ _ | .subReg _ _ | .shr _ _ | .subnReg _ _ | .shl _ _
  | .sneReg _ _ | .ldI _ | .jpV0 _ | .rnd _ _ | .drw _ _ _ | .skp _ | .sknp _ | .ldVxDt _ | .ldVxK _ | .ldDtVx _
  | .ldStVx _ | .addI _ | .ldF _ | .ldB _ | .storeRegs _ | .loadRegs _ => true
  | .unmatched w => isUnmatchedWord w

end Sys2Proof
end

