-- ==== Sys2Proof/Decode.lean ====
section
/-! DEFINITION. The opcode map (30_encoding.md R74), the decoder (R72, R75, R76; 40_cycle.md R102), total on every word and
every byte list, and the encoder. -/

namespace Sys2Proof

/-! ### Instruction fields (30_encoding.md R72) -/

/-- The class, `w[15:12]`. -/
def fieldClass (w : Word) : BitVec 4 := w.extractLsb' 12 4

/-- `X = w[11:8]`. -/
def fieldX (w : Word) : RegIx := w.extractLsb' 8 4

/-- `Y = w[7:4]`. -/
def fieldY (w : Word) : RegIx := w.extractLsb' 4 4

/-- `N = w[3:0]`. -/
def fieldN (w : Word) : Nibble := w.extractLsb' 0 4

/-- `NN = w[7:0]`. -/
def fieldNN (w : Word) : Byte := w.extractLsb' 0 8

/-- `NNN = w[11:0]`. -/
def fieldNNN (w : Word) : Addr12 := w.extractLsb' 0 12

/-! ### The decoder -/

/-- Class 0: 00E0 and 00EE are matched as whole words (R75). -/
def decodeClass0 (w : Word) : Instr :=
  if w = 0x00E0 then .cls else if w = 0x00EE then .ret else .unmatched w

/-- Class 8: the low nibble selects the operation (R74, R75). -/
def decodeClass8 (w : Word) : Instr :=
  match (fieldN w).toNat with
  | 0x0 => .ldReg (fieldX w) (fieldY w)
  | 0x1 => .orReg (fieldX w) (fieldY w)
  | 0x2 => .andReg (fieldX w) (fieldY w)
  | 0x3 => .xorReg (fieldX w) (fieldY w)
  | 0x4 => .addReg (fieldX w) (fieldY w)
  | 0x5 => .subReg (fieldX w) (fieldY w)
  | 0x6 => .shr (fieldX w) (fieldY w)
  | 0x7 => .subnReg (fieldX w) (fieldY w)
  | 0xE => .shl (fieldX w) (fieldY w)
  | _ => .unmatched w

/-- Class E: the low byte selects the operation (R74, R75). -/
def decodeClassE (w : Word) : Instr :=
  if fieldNN w = 0x9E then .skp (fieldX w)
  else if fieldNN w = 0xA1 then .sknp (fieldX w)
  else .unmatched w

/-- Class F: the low byte selects the operation (R74, R75). -/
def decodeClassF (w : Word) : Instr :=
  if fieldNN w = 0x07 then .ldVxDt (fieldX w)
  else if fieldNN w = 0x0A then .ldVxK (fieldX w)
  else if fieldNN w = 0x15 then .ldDtVx (fieldX w)
  else if fieldNN w = 0x18 then .ldStVx (fieldX w)
  else if fieldNN w = 0x1E then .addI (fieldX w)
  else if fieldNN w = 0x29 then .ldF (fieldX w)
  else if fieldNN w = 0x33 then .ldB (fieldX w)
  else if fieldNN w = 0x55 then .storeRegs (fieldX w)
  else if fieldNN w = 0x65 then .loadRegs (fieldX w)
  else .unmatched w

/-- The instruction a word stands for (40_cycle.md R102): total, since every word no row matches is an unmatched word (R76). -/
def decode (w : Word) : Instr :=
  match (fieldClass w).toNat with
  | 0x0 => decodeClass0 w
  | 0x1 => .jp (fieldNNN w)
  | 0x2 => .call (fieldNNN w)
  | 0x3 => .seImm (fieldX w) (fieldNN w)
  | 0x4 => .sneImm (fieldX w) (fieldNN w)
  | 0x5 => if fieldN w = 0x0 then .seReg (fieldX w) (fieldY w) else .unmatched w
  | 0x6 => .ldImm (fieldX w) (fieldNN w)
  | 0x7 => .addImm (fieldX w) (fieldNN w)
  | 0x8 => decodeClass8 w
  | 0x9 => if fieldN w = 0x0 then .sneReg (fieldX w) (fieldY w) else .unmatched w
  | 0xA => .ldI (fieldNNN w)
  | 0xB => .jpV0 (fieldNNN w)
  | 0xC => .rnd (fieldX w) (fieldNN w)
  | 0xD => .drw (fieldX w) (fieldY w) (fieldN w)
  | 0xE => decodeClassE w
  | 0xF => decodeClassF w
  | _ => .unmatched w

/-- Why a byte list holds no instruction: it ends before the two bytes of R70. Safe: the machine itself always fetches two. -/
inductive DecodeError
  | truncated
  deriving DecidableEq, Repr

/-- The word two bytes make, the one at the lower address in bits 15:8 (20_memory.md R56). -/
def wordOfBytes (hi lo : Byte) : Word := hi ++ lo

/-- The instruction at the head of a byte list, with the bytes after it (30_encoding.md R70, R78). -/
def decodeBytes : List Byte → Except DecodeError (Instr × List Byte)
  | hi :: lo :: rest => .ok (decode (wordOfBytes hi lo), rest)
  | _ => .error .truncated

/-! ### The encoder -/

/-- Format `A`: class and address (30_encoding.md R72). -/
def formatA (c : BitVec 4) (nnn : Addr12) : Word := c ++ nnn

/-- Format `RI`: class, register, immediate byte; also format `RS`, whose byte is the sub-opcode (R72). -/
def formatRI (c : BitVec 4) (x : RegIx) (nn : Byte) : Word := c ++ (x ++ nn)

/-- Format `RR`: class, two registers, sub-opcode; also format `D`, whose low nibble is the row count (R72). -/
def formatRR (c : BitVec 4) (x y : RegIx) (n : BitVec 4) : Word := c ++ (x ++ (y ++ n))

/-- The word of an instruction, pattern by pattern from 30_encoding.md R74. -/
def encode : Instr → Word
  | .cls => 0x00E0
  | .ret => 0x00EE
  | .jp nnn => formatA 0x1 nnn
  | .call nnn => formatA 0x2 nnn
  | .seImm x nn => formatRI 0x3 x nn
  | .sneImm x nn => formatRI 0x4 x nn
  | .seReg x y => formatRR 0x5 x y 0x0
  | .ldImm x nn => formatRI 0x6 x nn
  | .addImm x nn => formatRI 0x7 x nn
  | .ldReg x y => formatRR 0x8 x y 0x0
  | .orReg x y => formatRR 0x8 x y 0x1
  | .andReg x y => formatRR 0x8 x y 0x2
  | .xorReg x y => formatRR 0x8 x y 0x3
  | .addReg x y => formatRR 0x8 x y 0x4
  | .subReg x y => formatRR 0x8 x y 0x5
  | .shr x y => formatRR 0x8 x y 0x6
  | .subnReg x y => formatRR 0x8 x y 0x7
  | .shl x y => formatRR 0x8 x y 0xE
  | .sneReg x y => formatRR 0x9 x y 0x0
  | .ldI nnn => formatA 0xA nnn
  | .jpV0 nnn => formatA 0xB nnn
  | .rnd x nn => formatRI 0xC x nn
  | .drw x y n => formatRR 0xD x y n
  | .skp x => formatRI 0xE x 0x9E
  | .sknp x => formatRI 0xE x 0xA1
  | .ldVxDt x => formatRI 0xF x 0x07
  | .ldVxK x => formatRI 0xF x 0x0A
  | .ldDtVx x => formatRI 0xF x 0x15
  | .ldStVx x => formatRI 0xF x 0x18
  | .addI x => formatRI 0xF x 0x1E
  | .ldF x => formatRI 0xF x 0x29
  | .ldB x => formatRI 0xF x 0x33
  | .storeRegs x => formatRI 0xF x 0x55
  | .loadRegs x => formatRI 0xF x 0x65
  | .unmatched w => w

/-- Bits 15:8 of a word: the byte at the lower address (20_memory.md R56). -/
def highByte (w : Word) : Byte := w.extractLsb' 8 8

/-- Bits 7:0 of a word: the byte at the higher address (20_memory.md R56). -/
def lowByte (w : Word) : Byte := w.extractLsb' 0 8

/-- A word as memory holds it, most significant byte first (20_memory.md R56). -/
def bytesOfWord (w : Word) : List Byte := [highByte w, lowByte w]

/-- The bytes of an instruction in memory order. -/
def encodeBytes (i : Instr) : List Byte := bytesOfWord (encode i)

/-! ### The opcode map as a table (30_encoding.md R74) -/

/-- One row of the opcode map: the mnemonic as spec/opcode_table.json spells it, the fixed bits and their value. -/
structure OpcodeRow where
  mnemonic : String
  value : Word
  mask : Word
  deriving DecidableEq, Repr

/-- `w` selects the row: `w AND mask = match` (R74). -/
def rowSelects (r : OpcodeRow) (w : Word) : Bool := (w &&& r.mask) == r.value

/-- Rows of classes 0 to 7 and 9 to D. -/
def opcodeRowsMain : List OpcodeRow :=
  [⟨"CLS", 0x00E0, 0xFFFF⟩, ⟨"RET", 0x00EE, 0xFFFF⟩, ⟨"JP_nnn", 0x1000, 0xF000⟩, ⟨"CALL_nnn", 0x2000, 0xF000⟩,
   ⟨"SE_Vx__nn", 0x3000, 0xF000⟩, ⟨"SNE_Vx__nn", 0x4000, 0xF000⟩, ⟨"SE_Vx__Vy", 0x5000, 0xF00F⟩,
   ⟨"LD_Vx__nn", 0x6000, 0xF000⟩, ⟨"ADD_Vx__nn", 0x7000, 0xF000⟩, ⟨"SNE_Vx__Vy", 0x9000, 0xF00F⟩,
   ⟨"LD_I__nnn", 0xA000, 0xF000⟩, ⟨"JP_V0__nnn", 0xB000, 0xF000⟩, ⟨"RND_Vx__nn", 0xC000, 0xF000⟩,
   ⟨"DRW_Vx__Vy__n", 0xD000, 0xF000⟩]

/-- Rows of class 8. -/
def opcodeRowsAlu : List OpcodeRow :=
  [⟨"LD_Vx__Vy", 0x8000, 0xF00F⟩, ⟨"OR_Vx__Vy", 0x8001, 0xF00F⟩, ⟨"AND_Vx__Vy", 0x8002, 0xF00F⟩,
   ⟨"XOR_Vx__Vy", 0x8003, 0xF00F⟩, ⟨"ADD_Vx__Vy", 0x8004, 0xF00F⟩, ⟨"SUB_Vx__Vy", 0x8005, 0xF00F⟩,
   ⟨"SHR_Vx__Vy", 0x8006, 0xF00F⟩, ⟨"SUBN_Vx__Vy", 0x8007, 0xF00F⟩, ⟨"SHL_Vx__Vy", 0x800E, 0xF00F⟩]

/-- Rows of classes E and F. -/
def opcodeRowsSub : List OpcodeRow :=
  [⟨"SKP_Vx", 0xE09E, 0xF0FF⟩, ⟨"SKNP_Vx", 0xE0A1, 0xF0FF⟩, ⟨"LD_Vx__DT", 0xF007, 0xF0FF⟩,
   ⟨"LD_Vx__K", 0xF00A, 0xF0FF⟩, ⟨"LD_DT__Vx", 0xF015, 0xF0FF⟩, ⟨"LD_ST__Vx", 0xF018, 0xF0FF⟩,
   ⟨"ADD_I__Vx", 0xF01E, 0xF0FF⟩, ⟨"LD_F__Vx", 0xF029, 0xF0FF⟩, ⟨"LD_B__Vx", 0xF033, 0xF0FF⟩,
   ⟨"LD__I___Vx", 0xF055, 0xF0FF⟩, ⟨"LD_Vx___I", 0xF065, 0xF0FF⟩]

/-- The 34 rows of the opcode map. -/
def opcodeRows : List OpcodeRow := opcodeRowsMain ++ opcodeRowsAlu ++ opcodeRowsSub

/-- The mnemonic of an instruction, as spec/opcode_table.json spells it. -/
def Instr.mnemonic : Instr → String
  | .cls => "CLS"
  | .ret => "RET"
  | .jp _ => "JP_nnn"
  | .call _ => "CALL_nnn"
  | .seImm _ _ => "SE_Vx__nn"
  | .sneImm _ _ => "SNE_Vx__nn"
  | .seReg _ _ => "SE_Vx__Vy"
  | .ldImm _ _ => "LD_Vx__nn"
  | .addImm _ _ => "ADD_Vx__nn"
  | .ldReg _ _ => "LD_Vx__Vy"
  | .orReg _ _ => "OR_Vx__Vy"
  | .andReg _ _ => "AND_Vx__Vy"
  | .xorReg _ _ => "XOR_Vx__Vy"
  | .addReg _ _ => "ADD_Vx__Vy"
  | .subReg _ _ => "SUB_Vx__Vy"
  | .shr _ _ => "SHR_Vx__Vy"
  | .subnReg _ _ => "SUBN_Vx__Vy"
  | .shl _ _ => "SHL_Vx__Vy"
  | .sneReg _ _ => "SNE_Vx__Vy"
  | .ldI _ => "LD_I__nnn"
  | .jpV0 _ => "JP_V0__nnn"
  | .rnd _ _ => "RND_Vx__nn"
  | .drw _ _ _ => "DRW_Vx__Vy__n"
  | .skp _ => "SKP_Vx"
  | .sknp _ => "SKNP_Vx"
  | .ldVxDt _ => "LD_Vx__DT"
  | .ldVxK _ => "LD_Vx__K"
  | .ldDtVx _ => "LD_DT__Vx"
  | .ldStVx _ => "LD_ST__Vx"
  | .addI _ => "ADD_I__Vx"
  | .ldF _ => "LD_F__Vx"
  | .ldB _ => "LD_B__Vx"
  | .storeRegs _ => "LD__I___Vx"
  | .loadRegs _ => "LD_Vx___I"
  | .unmatched _ => "unmatched_word__no-op"

/-! ### The host's probe -/

/-- The word whose bits spec/opcode_table.json numbers in `w`, the bits from `nbits` up being 0: bit 0 is the least
significant bit of the one word an instruction has (R70). -/
def tableWord (nbits w : Nat) : Word := BitVec.ofNat 16 (w % 2 ^ nbits)

/-- The instruction the decoder reads from those bits, laid out as memory holds them. -/
def decodeTableWord (nbits w : Nat) : Option Instr :=
  match decodeBytes (bytesOfWord (tableWord nbits w)) with
  | .ok (i, _) => some i
  | .error _ => none

end Sys2Proof
end

