-- ==== Sys2Proof/Config.lean ====
section
/-! DEFINITION. What is fixed for the machine (00_scope.md R7): load and font addresses, the default font table, and the free
source behind the `rand` input. -/

namespace Sys2Proof.Config

/-- `PROG_BASE`: where a ROM is loaded and the reset PC (R7, R40). -/
def progBase : Word := 0x200

/-- `ROM_MAX`: the largest ROM that loads (R7, R263). -/
def romMax : Nat := 3584

/-- `FONT_BASE`: the address of glyph 0 (R7, R264). -/
def fontBase : Nat := 0x050

/-- Glyphs 0 to 7 of the default `FONT` (70_reset_and_hazards.md R264). PRESUMED: the spec marks the bytes as general
knowledge, and any other font is an argument of `load` (log 1). -/
def fontLow : List Byte :=
  [0xF0, 0x90, 0x90, 0x90, 0xF0] ++ [0x20, 0x60, 0x20, 0x20, 0x70] ++
  [0xF0, 0x10, 0xF0, 0x80, 0xF0] ++ [0xF0, 0x10, 0xF0, 0x10, 0xF0] ++
  [0x90, 0x90, 0xF0, 0x10, 0x10] ++ [0xF0, 0x80, 0xF0, 0x10, 0xF0] ++
  [0xF0, 0x80, 0xF0, 0x90, 0xF0] ++ [0xF0, 0x10, 0x20, 0x40, 0x40]

/-- Glyphs 8 to F of the default `FONT` (R264). -/
def fontHigh : List Byte :=
  [0xF0, 0x90, 0xF0, 0x90, 0xF0] ++ [0xF0, 0x90, 0xF0, 0x10, 0xF0] ++
  [0xF0, 0x90, 0xF0, 0x90, 0x90] ++ [0xE0, 0x90, 0xE0, 0x90, 0xE0] ++
  [0xF0, 0x80, 0x80, 0x80, 0xF0] ++ [0xE0, 0x90, 0x90, 0x90, 0xE0] ++
  [0xF0, 0x80, 0xF0, 0x80, 0xF0] ++ [0xF0, 0x80, 0xF0, 0x80, 0x80]

/-- The default `FONT`: 16 glyphs of 5 bytes (R264). -/
def font : List Byte := fontLow ++ fontHigh

/-- The byte the random source gives at its n-th free draw (R38, R152): no body, so a proof holds for every draw and every
sequence of draws (log 4). -/
opaque freeByte : Nat → Byte

end Sys2Proof.Config
end

