-- ==== Sys2Proof/Machine/State.lean ====
section
/-! DEFINITION. The machine state as plain data (10_state.md), its value after reset (R40), and the reasons a step can stop
(60_exceptions.md R233, R234). -/

namespace Sys2Proof.Machine

/-- `MEM`: the listed cells, addresses rising, none equal to what its address reads as when unlisted. -/
abbrev Memory := List Host.Cell

/-- `FB[x][y]`: 64 columns of 32 pixels, `true` an on pixel (10_state.md R32). -/
abbrev Frame := Vector (Vector Bool 32) 64

/-- The kinds of fault (60_exceptions.md R234). -/
inductive FaultKind
  | fetchOutOfRange
  | memOutOfRange
  | keyOutOfRange
  deriving DecidableEq, Repr

/-- What `FAULT` records: the kind and the PC at the start of the faulting step (10_state.md R35). -/
structure FaultRecord where
  kind : FaultKind
  addr : Word
  deriving DecidableEq, Repr

/-- The kinds of reported error (60_exceptions.md R231). -/
inductive ErrorKind
  | stackOverflow
  | stackUnderflow
  deriving DecidableEq, Repr

/-- One entry of `ERRLOG`: the kind and the address of the instruction that reported it (10_state.md R36). -/
structure ErrorEvent where
  kind : ErrorKind
  addr : Word
  deriving DecidableEq, Repr

/-- The transactions that may follow `load`, in any order (10_state.md R38, R39). -/
inductive Transaction
  /-- One instruction (40_cycle.md R104). -/
  | step
  /-- One pulse of the 60 Hz timer driver (45_timers_input.md R214). -/
  | tick
  /-- The input provider writes the latch (45_timers_input.md R216). -/
  | inputUpdate (held rel : BitVec 16)
  deriving DecidableEq, Repr

/-- The state of the machine (10_state.md R20 to R40). -/
structure State where
  /-- `V[0]`..`V[15]`, `V[15]` being VF (R20, R21). -/
  v : Vector Byte 16
  /-- The index register `I` (R27). -/
  i : Word
  /-- The program counter (R23). -/
  pc : Word
  /-- The stack pointer: the number of free entries (R29). -/
  sp : Byte
  /-- The call stack `STK[0]`..`STK[15]` (R28). -/
  stk : Vector Word 16
  /-- The delay timer (R31). -/
  dt : Byte
  /-- The sound timer (R31). -/
  st : Byte
  /-- Memory (20_memory.md R50). -/
  mem : Memory
  /-- The framebuffer (R32). -/
  fb : Frame
  /-- `HELD`, bit k for key k (R33). -/
  held : BitVec 16
  /-- `REL`, bit k for key k (R33). -/
  rel : BitVec 16
  /-- `FAULT` (R35). -/
  fault : Option FaultRecord
  /-- `ERRLOG`, oldest first (R36). -/
  errlog : List ErrorEvent
  /-- The constant configuration input `LEGACY` (R34). -/
  legacy : Bool
  /-- The model's own: the bytes the `rand` input (R38) gives to the coming draws; free draws follow when it is empty (log 4). -/
  randIn : List Byte
  /-- The model's own: how many free draws have been taken (log 4). -/
  draws : Nat
  /-- The model's own: the transactions due next, in order; instruction steps follow when it is empty (R39, log 5). -/
  schedule : List Transaction
  deriving DecidableEq, Repr

/-- Why a run ends in error: the outcome `Faulted(kind, p)` of 40_cycle.md R104. `final` is the state the step leaves: as
before the step, with `FAULT` recording the kind and the address (R233). Every constructor is safe: the run stops where the
source gives no value (D3 to D6). -/
inductive Fault
  /-- Raised by the fetch of any step with PC above 0xFFE (R101). Safe. -/
  | fetchOutOfRange (final : State)
  /-- Raised by DXYN, FX33, FX55 and FX65 when a byte of the access lies above 0xFFF (20_memory.md R55). Safe. -/
  | memOutOfRange (final : State)
  /-- Raised by EX9E and EXA1 when `V[X]` is above 15 (45_timers_input.md R219). Safe. -/
  | keyOutOfRange (final : State)
  deriving DecidableEq, Repr

/-- Why a transaction is given no meaning. No instruction is refused: `exec` has no refused arm. -/
inductive Refusal
  /-- An instruction without a meaning; no arm of `exec` answers it. Safe. -/
  | notModelled (mnemonic : String)
  /-- Raised by `load` for a ROM longer than 3584 bytes: no step runs (70_reset_and_hazards.md R263). Safe. -/
  | romTooLong
  /-- Raised by `load` for a ROM that cannot be read: no step runs (R263). Safe. -/
  | romUnreadable
  deriving DecidableEq, Repr

/-- What a meaning answers. -/
abbrev Result := Host.Outcome State Fault Refusal

/-- The state right after reset (10_state.md R40, 70_reset_and_hazards.md R260), nothing loaded but the font: memory lists
nothing (logs 1, 2), the configuration is modern (log 3), no draw and no transaction is scheduled (logs 4, 5). -/
def State.reset : State where
  v := Vector.replicate 16 0
  i := 0
  pc := Config.progBase
  sp := 16
  stk := Vector.replicate 16 0
  dt := 0
  st := 0
  mem := []
  fb := Vector.replicate 64 (Vector.replicate 32 false)
  held := 0
  rel := 0
  fault := none
  errlog := []
  legacy := false
  randIn := []
  draws := 0
  schedule := []

end Sys2Proof.Machine
end

