-- ==== Sys2Proof/Machine/Ops.lean ====
section
/-! DEFINITION. The shared operations of the meanings: registers, memory, the call stack, the framebuffer, the random input,
the fetch, raising a fault and reporting an error. -/

namespace Sys2Proof.Machine

/-! ### Registers (10_state.md) -/

/-- `V[x]` (R20). -/
def State.reg (s : State) (x : RegIx) : Byte := s.v[x.toNat]'x.isLt

/-- `V[x] <- b` (R20). -/
def State.setReg (s : State) (x : RegIx) (b : Byte) : State := { s with v := s.v.set x.toNat b x.isLt }

/-- The index of the flag register VF (R21). -/
def flagIx : RegIx := 0xF

/-- VF. -/
def State.flag (s : State) : Byte := s.reg flagIx

/-- The byte a flag is: 1 or 0 (R22). -/
def flagByte (b : Bool) : Byte := if b then 1 else 0

/-- Writes the flag, always as the last write of its instruction (R22). -/
def State.setFlag (s : State) (b : Bool) : State := s.setReg flagIx (flagByte b)

/-- `I <- a` (R27). -/
def State.setI (s : State) (a : Word) : State := { s with i := a }

/-- `PC <- a` (R23, R24). -/
def State.setPc (s : State) (a : Word) : State := { s with pc := a }

/-- The address of the instruction being executed: PC holds it plus 2 after the fetch (R23). DEDUCED (log 9). -/
def State.instrAddr (s : State) : Word := s.pc - 2

/-! ### Faults and reported errors (60_exceptions.md) -/

/-- The stop reason of a kind of fault. -/
def faultOf (k : FaultKind) (final : State) : Fault :=
  match k with
  | .fetchOutOfRange => .fetchOutOfRange final
  | .memOutOfRange => .memOutOfRange final
  | .keyOutOfRange => .keyOutOfRange final

/-- The kind of a stop reason. -/
def Fault.kind : Fault → FaultKind
  | .fetchOutOfRange _ => .fetchOutOfRange
  | .memOutOfRange _ => .memOutOfRange
  | .keyOutOfRange _ => .keyOutOfRange

/-- The state a faulting step leaves. -/
def Fault.final : Fault → State
  | .fetchOutOfRange s => s
  | .memOutOfRange s => s
  | .keyOutOfRange s => s

/-- The state after a fault in the instruction at `p`: as before the step, so PC is `p`, with `FAULT <- some(kind, p)` (R233). -/
def State.withFault (s : State) (k : FaultKind) (p : Word) : State := { s with pc := p, fault := some ⟨k, p⟩ }

/-- `raise Fault(kind)` in the step of the instruction at `p` (R233). -/
def raiseAt (k : FaultKind) (p : Word) (s : State) : Result := .fault (faultOf k (s.withFault k p))

/-- `raise Fault(kind)` from an execute part, before it has written anything (R235). -/
def raise (k : FaultKind) (s : State) : Result := raiseAt k s.instrAddr s

/-- `report Error(kind)`: the event is appended to `ERRLOG` and the rest of the instruction is abandoned (R231). -/
def reportError (k : ErrorKind) (s : State) : Result := .next { s with errlog := s.errlog ++ [⟨k, s.instrAddr⟩] }

/-! ### Memory (20_memory.md) -/

/-- What an unlisted address reads as: the font at 0x050..0x09F (70_reset_and_hazards.md R264), 0 elsewhere. DESIGN CHOICE:
R265 leaves the other bytes open (logs 1, 2). -/
def Memory.unlisted (a : Nat) : Byte :=
  if 0x050 ≤ a ∧ a < 0x0A0 then Config.font.getD (a - Config.fontBase) 0 else 0

/-- `MemRead(a, 1)` for an address whose range has been checked (R52). -/
def Memory.read (m : Memory) (a : Nat) : Byte :=
  match m with
  | [] => Memory.unlisted a
  | (b, v) :: rest => if a = b then v else Memory.read rest a

/-- Lists `v` at `a`, keeping the addresses in rising order. -/
def Memory.put (m : Memory) (a : Nat) (v : Byte) : Memory :=
  match m with
  | [] => [(a, v)]
  | (b, w) :: rest =>
    if a < b then (a, v) :: (b, w) :: rest
    else if a = b then (a, v) :: rest
    else (b, w) :: Memory.put rest a v

/-- Takes the entry at `a` out. -/
def Memory.erase (m : Memory) (a : Nat) : Memory := m.filter (fun c => c.1 != a)

/-- `MemWrite(a, 1, v)` for an address whose range has been checked (R53). No byte exists above 0xFFF, so there is none to
write there (R50; log 6). -/
def Memory.write (m : Memory) (a : Nat) (v : Byte) : Memory :=
  if a ≤ 0xFFF then
    if v = Memory.unlisted a then m.erase a else m.put a v
  else m

/-- Writes bytes at consecutive addresses, the first at `a` (43_index_memory.md R170). -/
def Memory.writeBytes (m : Memory) (a : Nat) (bs : List Byte) : Memory :=
  match bs with
  | [] => m
  | b :: rest => Memory.writeBytes (m.write a b) (a + 1) rest

/-- The canonical form of memory: addresses rising, inside 0x000..0xFFF, no entry equal to what its address reads as when
unlisted. -/
abbrev Memory.wf (m : Memory) : Prop :=
  m.Pairwise (fun p q => p.1 < q.1) ∧ ∀ c ∈ m, c.1 ≤ 0xFFF ∧ c.2 ≠ Memory.unlisted c.1

/-- The byte at `a` of the state's memory. -/
def State.byteAt (s : State) (a : Nat) : Byte := s.mem.read a

/-- Runs `act` if all of the `n` bytes at `I`, `I + 1`, … exist, else raises `MemOutOfRange` before anything is written (R55;
43_index_memory.md R170). An access of no bytes is never out of range (44_display.md R193). -/
def withRange (n : Nat) (s : State) (act : State → Result) : Result :=
  if 0 < n ∧ s.i.toNat + n - 1 > 0xFFF then raise .memOutOfRange s else act s

/-! ### Call stack (41_control_flow.md) -/

/-- `Push(v)`, then the rest of the instruction (R121). Only a state with SP above 16, which no rule reaches (10_state.md
R29), has no entry to write (log 8). -/
def push (a : Word) (s : State) (rest : State → Result) : Result :=
  if s.sp = 0 then reportError .stackOverflow s
  else rest { s with stk := s.stk.setIfInBounds (s.sp.toNat - 1) a, sp := s.sp - 1 }

/-- `Pop()`, then the rest of the instruction with the value popped (R122). -/
def pop (s : State) (rest : Word → State → Result) : Result :=
  if h : s.sp.toNat < 16 then rest (s.stk[s.sp.toNat]'h) { s with sp := s.sp + 1 }
  else reportError .stackUnderflow s

/-! ### The random input (10_state.md R38) -/

/-- `RandByte()`: one draw, with the state after it. The `rand` input gives the next byte of `randIn`, or a free byte when
nothing is listed (42_alu.md R152; log 4). -/
def randByte (s : State) : Byte × State :=
  match s.randIn with
  | r :: rest => (r, { s with randIn := rest })
  | [] => (Config.freeByte s.draws, { s with draws := s.draws + 1 })

/-! ### Register blocks (43_index_memory.md R176, R177) -/

/-- `V[0]`..`V[x]`, in order. -/
def State.firstRegs (s : State) (x : RegIx) : List Byte := s.v.toList.take (x.toNat + 1)

/-- The registers after `V[k] <- MEM[a + k]` for the first `n` registers. -/
def loadBlock (m : Memory) (a : Nat) (n : Nat) (v : Vector Byte 16) : Vector Byte 16 :=
  match n with
  | 0 => v
  | k + 1 => (loadBlock m a k v).setIfInBounds k (m.read (a + k))

/-! ### Framebuffer (44_display.md) -/

/-- The cleared framebuffer (R190). -/
def clearFrame : Frame := Vector.replicate 64 (Vector.replicate 32 false)

/-- `FB[x][y]`; outside the grid there is no pixel, hence no on pixel. -/
def pixelAt (fb : Frame) (x y : Nat) : Bool :=
  if h : x < 64 ∧ y < 32 then (fb[x]'h.1)[y]'h.2 else false

/-- `FB[x][y] <- FB[x][y] XOR 1`; outside the grid there is no pixel to change. -/
def flipPixel (fb : Frame) (x y : Nat) : Frame :=
  if h : x < 64 ∧ y < 32 then fb.set x ((fb[x]'h.1).set y (!(fb[x]'h.1)[y]'h.2) h.2) h.1 else fb

/-- Draws bit `7 - j` of a sprite byte at column `x0 + j` of row `y` (R191, R192): clipped at column 64 (R194), and an on pixel
turned off is a collision. The pair is the framebuffer and the flag `c` of R191. -/
def drawPixel (b : Byte) (x0 y : Nat) (acc : Frame × Bool) (j : Nat) : Frame × Bool :=
  if x0 + j ≥ 64 then acc
  else if b.getLsbD (7 - j) then (flipPixel acc.1 (x0 + j) y, acc.2 || pixelAt acc.1 (x0 + j) y)
  else acc

/-- Draws one sprite row: the eight bits of `b`, the most significant leftmost (R192). -/
def drawRow (b : Byte) (x0 y : Nat) (acc : Frame × Bool) : Frame × Bool :=
  (List.range 8).foldl (drawPixel b x0 y) acc

/-- Draws the `n` sprite rows at `MEM[a]`, `MEM[a + 1]`, …, clipped at row 32 (R191, R194). The loops skip clipped columns and
rows where R191 breaks off, which is the same since later ones are clipped too (DEDUCED, log 9). -/
def drawSprite (m : Memory) (a : Nat) (x0 y0 : Nat) (n : Nat) (fb : Frame) : Frame × Bool :=
  (List.range n).foldl
    (fun acc r => if y0 + r ≥ 32 then acc else drawRow (m.read (a + r)) x0 (y0 + r) acc) (fb, false)

/-! ### Input latch (45_timers_input.md) -/

/-- `HELD[k]` (10_state.md R33). -/
def State.keyHeld (s : State) (k : Nat) : Bool := s.held.getLsbD k

/-- `REL[k]` (10_state.md R33). -/
def State.keyReleased (s : State) (k : Nat) : Bool := s.rel.getLsbD k

/-- The lowest key whose released flag is set, if any (R221). -/
def State.lowestReleased (s : State) : Option Nat := (List.range 16).find? (fun k => s.keyReleased k)

/-- Runs `act` with the key index `V[x]`, or raises `KeyOutOfRange` if there is no such key (R219). -/
def withKey (x : RegIx) (s : State) (act : Nat → State → Result) : Result :=
  if (s.reg x).toNat > 15 then raise .keyOutOfRange s else act (s.reg x).toNat s

/-! ### Control flow (41_control_flow.md) -/

/-- The common skip: PC moves past one more word if the condition holds (R120). -/
def skipIf (c : Bool) (s : State) : Result := .next (if c then s.setPc (s.pc + 2) else s)

/-! ### Fetch (40_cycle.md R100, R101) -/

/-- The word at PC, most significant byte first (20_memory.md R56). -/
def State.fetchWord (s : State) : Word := wordOfBytes (s.byteAt s.pc.toNat) (s.byteAt (s.pc.toNat + 1))

/-- The fetch of a step: with PC above 0xFFE it raises `FetchOutOfRange` and changes nothing (R101), else it advances PC by 2
and hands on the word (R100). -/
def fetch (s : State) (dispatch : Word → State → Result) : Result :=
  if s.pc.toNat > 0xFFE then raiseAt .fetchOutOfRange s.pc s
  else dispatch s.fetchWord (s.setPc (s.pc + 2))

/-- Places the two bytes of a word where the next step fetches: at PC, or at `PROG_BASE` if no word can be fetched at PC. What
would keep the next step from running an instruction (a fault, a scheduled transaction) is cleared (log 7). -/
def placeWord (s : State) (w : Word) : State :=
  let p : Word := if s.pc.toNat > 0xFFE then Config.progBase else s.pc
  { s with pc := p, mem := s.mem.writeBytes p.toNat (bytesOfWord w), fault := none, schedule := [] }

end Sys2Proof.Machine
end

