-- ==== Sys2Proof/Machine/Flags.lean ====
section
/-! DEFINITION. The flag computations (10_state.md R21, R22): each depends only on the operand values before the instruction. -/

namespace Sys2Proof.Machine

/-- 8XY4: the sum is above 255 (42_alu.md R147). -/
def carryOut (a b : Byte) : Bool := decide (a.toNat + b.toNat > 255)

/-- 8XY5 and 8XY7: subtracting `b` from `a` needs no borrow, `a ≥ b` (42_alu.md R148, R150). -/
def noBorrow (a b : Byte) : Bool := decide (a.toNat ≥ b.toNat)

/-- 8XY6: the bit shifted out on the right, bit 0 of the value shifted (42_alu.md R149). -/
def shiftedOutRight (a : Byte) : Bool := a.getLsbD 0

/-- 8XYE: the bit shifted out on the left, bit 7 of the value shifted (42_alu.md R151). -/
def shiftedOutLeft (a : Byte) : Bool := a.getLsbD 7

/-- FX1E: the unmasked sum is above 0xFFF (43_index_memory.md R172). -/
def indexOverflow (i : Word) (b : Byte) : Bool := decide (i.toNat + b.toNat > 0xFFF)

/-- An arithmetic result with its flag: the result into `V[x]`, then the flag into VF, so that VF holds the flag when `x` is F
(10_state.md R22). -/
def State.setResult (s : State) (x : RegIx) (r : Byte) (f : Bool) : State := (s.setReg x r).setFlag f

end Sys2Proof.Machine
end

