-- ==== Sys2Proof/Machine/Operands.lean ====
section
/-! DEFINITION. The operand forms of the instructions (30_encoding.md R73) and the values they stand for, among them the three
forms the configuration `LEGACY` selects (10_state.md R34). -/

namespace Sys2Proof.Machine

/-- `zext_16(NNN)`: a 12-bit address as a target or index (30_encoding.md R73). -/
def addrWord (nnn : Addr12) : Word := nnn.setWidth 16

/-- `zext_16(V[x])` (00_scope.md R9). -/
def State.regWord (s : State) (x : RegIx) : Word := (s.reg x).setWidth 16

/-- The X nibble of a BNNN word: the top nibble of NNN (30_encoding.md R73). -/
def topNibble (nnn : Addr12) : RegIx := nnn.extractLsb' 8 4

/-- The register BNNN adds: V0 in legacy mode, `V[X]` in modern mode (41_control_flow.md R130). -/
def State.jumpReg (s : State) (nnn : Addr12) : RegIx := if s.legacy then 0 else topNibble nnn

/-- The value 8XY6 and 8XYE shift: VY, copied into VX first, in legacy mode; VX in modern mode (42_alu.md R149, R151). -/
def State.shiftOperand (s : State) (x y : RegIx) : Byte := if s.legacy then s.reg y else s.reg x

/-- The address of font glyph `V[x] AND 0x0F` (43_index_memory.md R173). -/
def glyphAddr (b : Byte) : Word := BitVec.ofNat 16 (Config.fontBase + (b &&& 0x0F).toNat * 5)

/-- The three decimal digits of a byte, hundreds first (43_index_memory.md R174). -/
def bcdDigits (b : Byte) : List Byte :=
  [BitVec.ofNat 8 (b.toNat / 100), BitVec.ofNat 8 (b.toNat / 10 % 10), BitVec.ofNat 8 (b.toNat % 10)]

/-- The address of the k-th byte of a data access: `I + k`, a natural number without wrap (20_memory.md R54). -/
def State.dataAddr (s : State) (k : Nat) : Nat := s.i.toNat + k

/-- The index after the transfer of FX55 and FX65: `trunc_16(I + X + 1)` in legacy mode, unchanged in modern mode
(43_index_memory.md R175). -/
def State.indexAfterBlock (s : State) (x : RegIx) : Word :=
  if s.legacy then BitVec.ofNat 16 (s.i.toNat + x.toNat + 1) else s.i

/-- The column a sprite starts at: `V[x] mod 64` (44_display.md R191, R194). -/
def State.spriteCol (s : State) (x : RegIx) : Nat := (s.reg x).toNat % 64

/-- The row a sprite starts at: `V[y] mod 32` (44_display.md R191, R194). -/
def State.spriteRow (s : State) (y : RegIx) : Nat := (s.reg y).toNat % 32

end Sys2Proof.Machine
end

