-- ==== Sys2Proof/Machine/Alu.lean ====
section
/-! DEFINITION. The arithmetic-logic instructions (42_alu.md): 8-bit results, modulo 256 (R140), operands read before any write. -/

namespace Sys2Proof.Machine

/-- 6XNN `LD Vx, nn` (R141). -/
def execLdImm (x : RegIx) (nn : Byte) (s : State) : Result := .next (s.setReg x nn)

/-- 7XNN `ADD Vx, nn` (R142): no flag. -/
def execAddImm (x : RegIx) (nn : Byte) (s : State) : Result := .next (s.setReg x (s.reg x + nn))

/-- 8XY0 `LD Vx, Vy` (R143). -/
def execLdReg (x y : RegIx) (s : State) : Result := .next (s.setReg x (s.reg y))

/-- 8XY1 `OR Vx, Vy` (R144): no flag. -/
def execOrReg (x y : RegIx) (s : State) : Result := .next (s.setReg x (s.reg x ||| s.reg y))

/-- 8XY2 `AND Vx, Vy` (R145): no flag. -/
def execAndReg (x y : RegIx) (s : State) : Result := .next (s.setReg x (s.reg x &&& s.reg y))

/-- 8XY3 `XOR Vx, Vy` (R146): no flag. -/
def execXorReg (x y : RegIx) (s : State) : Result := .next (s.setReg x (s.reg x ^^^ s.reg y))

/-- 8XY4 `ADD Vx, Vy` (R147): VF is the carry. -/
def execAddReg (x y : RegIx) (s : State) : Result :=
  .next (s.setResult x (s.reg x + s.reg y) (carryOut (s.reg x) (s.reg y)))

/-- 8XY5 `SUB Vx, Vy` (R148): VF is 1 when there is no borrow. -/
def execSubReg (x y : RegIx) (s : State) : Result :=
  .next (s.setResult x (s.reg x - s.reg y) (noBorrow (s.reg x) (s.reg y)))

/-- 8XY6 `SHR Vx, Vy` (R149): VF is the bit shifted out of the operand the mode selects. -/
def execShr (x y : RegIx) (s : State) : Result :=
  .next (s.setResult x (s.shiftOperand x y >>> 1) (shiftedOutRight (s.shiftOperand x y)))

/-- 8XY7 `SUBN Vx, Vy` (R150): VF is 1 when there is no borrow. -/
def execSubnReg (x y : RegIx) (s : State) : Result :=
  .next (s.setResult x (s.reg y - s.reg x) (noBorrow (s.reg y) (s.reg x)))

/-- 8XYE `SHL Vx, Vy` (R151): VF is the bit shifted out of the operand the mode selects. -/
def execShl (x y : RegIx) (s : State) : Result :=
  .next (s.setResult x (s.shiftOperand x y <<< 1) (shiftedOutLeft (s.shiftOperand x y)))

/-- CXNN `RND Vx, nn` (R152): one draw, masked. -/
def execRnd (x : RegIx) (nn : Byte) (s : State) : Result :=
  .next ((randByte s).2.setReg x ((randByte s).1 &&& nn))

end Sys2Proof.Machine
end

