-- ==== Sys2Proof/Machine/ControlFlow.lean ====
section
/-! DEFINITION. The control-flow instructions (41_control_flow.md) and the unmatched word (40_cycle.md R105). Every meaning acts
on the state left by the fetch: PC holds the instruction's address plus 2. -/

namespace Sys2Proof.Machine

/-- 00EE `RET` (R123). -/
def execRet (s : State) : Result := pop s (fun a t => .next (t.setPc a))

/-- 1NNN `JP nnn` (R124). -/
def execJp (nnn : Addr12) (s : State) : Result := .next (s.setPc (addrWord nnn))

/-- 2NNN `CALL nnn` (R125). -/
def execCall (nnn : Addr12) (s : State) : Result := push s.pc s (fun t => .next (t.setPc (addrWord nnn)))

/-- 3XNN `SE Vx, nn` (R126). -/
def execSeImm (x : RegIx) (nn : Byte) (s : State) : Result := skipIf (s.reg x == nn) s

/-- 4XNN `SNE Vx, nn` (R127). -/
def execSneImm (x : RegIx) (nn : Byte) (s : State) : Result := skipIf (s.reg x != nn) s

/-- 5XY0 `SE Vx, Vy` (R128). -/
def execSeReg (x y : RegIx) (s : State) : Result := skipIf (s.reg x == s.reg y) s

/-- 9XY0 `SNE Vx, Vy` (R129). -/
def execSneReg (x y : RegIx) (s : State) : Result := skipIf (s.reg x != s.reg y) s

/-- BNNN `JP V0, nnn` (R130): the exact 16-bit sum, not masked to 12 bits. -/
def execJpV0 (nnn : Addr12) (s : State) : Result := .next (s.setPc (addrWord nnn + s.regWord (s.jumpReg nnn)))

/-- An unmatched word: nothing beyond the fetch's PC advance (40_cycle.md R105). -/
def execUnmatched (_w : Word) (s : State) : Result := .next s

end Sys2Proof.Machine
end

