-- ==== Sys2Proof/Machine/Display.lean ====
section
/-! DEFINITION. The framebuffer instructions (44_display.md). -/

namespace Sys2Proof.Machine

/-- 00E0 `CLS` (R190). -/
def execCls (s : State) : Result := .next { s with fb := clearFrame }

/-- DXYN `DRW Vx, Vy, n` (R191): all `n` bytes are range-checked (R195), the position is read before VF is written, VF is the
collision flag, written last. -/
def execDrw (x y : RegIx) (n : Nibble) (s : State) : Result :=
  withRange n.toNat s (fun t =>
    let d := drawSprite t.mem (t.dataAddr 0) (t.spriteCol x) (t.spriteRow y) n.toNat t.fb
    .next ({ t with fb := d.1 }.setFlag d.2))

end Sys2Proof.Machine
end

