-- ==== Sys2Proof/Machine/IndexMemory.lean ====
section
/-! DEFINITION. The index-register and memory instructions (43_index_memory.md). -/

namespace Sys2Proof.Machine

/-- ANNN `LD I, nnn` (R171). -/
def execLdI (nnn : Addr12) (s : State) : Result := .next (s.setI (addrWord nnn))

/-- FX1E `ADD I, Vx` (R172): the 16-bit sum, VF from the unmasked sum. -/
def execAddI (x : RegIx) (s : State) : Result :=
  .next ((s.setI (s.i + s.regWord x)).setFlag (indexOverflow s.i (s.reg x)))

/-- FX29 `LD F, Vx` (R173). -/
def execLdF (x : RegIx) (s : State) : Result := .next (s.setI (glyphAddr (s.reg x)))

/-- FX33 `LD B, Vx` (R174): three bytes, the range checked before any write. -/
def execLdB (x : RegIx) (s : State) : Result :=
  withRange 3 s (fun t => .next { t with mem := t.mem.writeBytes (t.dataAddr 0) (bcdDigits (t.reg x)) })

/-- FX55 `LD [I], Vx` (R176): `X + 1` bytes, the range checked before any write, then the legacy increment (R175). -/
def execStoreRegs (x : RegIx) (s : State) : Result :=
  withRange (x.toNat + 1) s (fun t =>
    .next { t with mem := t.mem.writeBytes (t.dataAddr 0) (t.firstRegs x), i := t.indexAfterBlock x })

/-- FX65 `LD Vx, [I]` (R177): `X + 1` bytes, the range checked before any write, then the legacy increment (R175). -/
def execLoadRegs (x : RegIx) (s : State) : Result :=
  withRange (x.toNat + 1) s (fun t =>
    .next { t with v := loadBlock t.mem (t.dataAddr 0) (x.toNat + 1) t.v, i := t.indexAfterBlock x })

end Sys2Proof.Machine
end

