-- ==== Sys2Proof/Machine/TimersInput.lean ====
section
/-! DEFINITION. The timer and key instructions (45_timers_input.md). -/

namespace Sys2Proof.Machine

/-- FX07 `LD Vx, DT` (R210). -/
def execLdVxDt (x : RegIx) (s : State) : Result := .next (s.setReg x s.dt)

/-- FX15 `LD DT, Vx` (R211). -/
def execLdDtVx (x : RegIx) (s : State) : Result := .next { s with dt := s.reg x }

/-- FX18 `LD ST, Vx` (R212). -/
def execLdStVx (x : RegIx) (s : State) : Result := .next { s with st := s.reg x }

/-- EX9E `SKP Vx` (R217). -/
def execSkp (x : RegIx) (s : State) : Result := withKey x s (fun k t => skipIf (t.keyHeld k) t)

/-- EXA1 `SKNP Vx` (R218). -/
def execSknp (x : RegIx) (s : State) : Result := withKey x s (fun k t => skipIf (!t.keyHeld k) t)

/-- FX0A `LD Vx, K` (R220): the lowest released key (R221), or back to this very instruction (R222). -/
def execLdVxK (x : RegIx) (s : State) : Result :=
  match s.lowestReleased with
  | some k => .next (s.setReg x (BitVec.ofNat 8 k))
  | none => .next (s.setPc s.instrAddr)

end Sys2Proof.Machine
end

