-- ==== Sys2Proof/Machine/Environment.lean ====
section
/-! DEFINITION. The transactions the environment performs on the block and the outputs it reads (10_state.md R38): the timer
tick, the input update, the loading before the first step, the framebuffer, the tone, the error and fault outputs. -/

namespace Sys2Proof.Machine

/-- A timer after one tick: down by one while positive (45_timers_input.md R214). -/
def countDown (t : Byte) : Byte := if t = 0 then 0 else t - 1

/-- Runs a transaction of the environment, which has no effect once a fault has ended the run (10_state.md R35; 60_exceptions.md
R233). -/
def unlessFaulted (s : State) (act : State → State) : State :=
  match s.fault with
  | none => act s
  | some _ => s

/-- The `tick` transaction (R214). -/
def tick (s : State) : State := unlessFaulted s (fun t => { t with dt := countDown t.dt, st := countDown t.st })

/-- The `input_update(h, r)` transaction (R216). -/
def inputUpdate (h r : BitVec 16) (s : State) : State := unlessFaulted s (fun t => { t with held := h, rel := r })

/-- The `tone` output: `ST > 0` (R215). -/
def toneOut (s : State) : Bool := decide (s.st.toNat > 0)

/-- The `fb` output: pixel at column `x`, row `y` (10_state.md R32, R38). -/
def fbOut (s : State) (x y : Nat) : Bool := pixelAt s.fb x y

/-- The `fault` output (10_state.md R38). -/
def faultOut (s : State) : Option FaultRecord := s.fault

/-- The `error` output: every event reported so far (10_state.md R36, R38). -/
def errorOut (s : State) : List ErrorEvent := s.errlog

/-- Memory after loading: the ROM from 0x200 up, the font at 0x050..0x09F, `MEM_INIT` elsewhere (70_reset_and_hazards.md
R262, R265). -/
def loadImage (memInit : Nat → Byte) (font : Vector Byte 80) (rom : List Byte) (a : Nat) : Byte :=
  if 0x200 ≤ a ∧ a < 0x200 + rom.length then rom.getD (a - 0x200) 0
  else if h : 0x050 ≤ a ∧ a < 0x0A0 then font[a - 0x050]'(by omega)
  else memInit a

/-- The canonical memory that holds `image a` at every address below `n`. -/
def Memory.ofImage (image : Nat → Byte) (n : Nat) : Memory :=
  ((List.range n).map (fun a => (a, image a))).filter (fun c => c.2 != Memory.unlisted c.1)

/-- The `load(font, rom)` transaction (R262) under a configuration and a `MEM_INIT` (R261, R265); a ROM that cannot be read
(`none`) or is longer than 3584 bytes is refused and no step runs (R263). -/
def load (legacy : Bool) (memInit : Nat → Byte) (font : Vector Byte 80) (rom : Option (List Byte)) : Result :=
  match rom with
  | none => .refused .romUnreadable
  | some bytes =>
    if bytes.length > Config.romMax then .refused .romTooLong
    else .next { State.reset with
      mem := Memory.ofImage (loadImage memInit font bytes) 0x1000
      legacy := legacy }

/-- The state with the environment of the coming run: the transactions in their order (10_state.md R39) and the bytes the
`rand` input will give (R38). -/
def State.withEnvironment (s : State) (schedule : List Transaction) (rand : List Byte) : State :=
  { s with schedule := schedule, randIn := rand }

end Sys2Proof.Machine
end

