-- ==== Sys2Proof/Machine/Step.lean ====
section
/-! DEFINITION. The step of the machine: the next transaction of the block (10_state.md R39), which is the `step` transaction of
40_cycle.md R104 unless the schedule says otherwise. -/

namespace Sys2Proof.Machine

/-- The `step` transaction from a state without a fault: fetch, decode, execute (40_cycle.md R104). -/
def instrStep (s : State) : Host.Outcome State Fault Refusal := fetch s (fun w t => exec (decode w) t)

/-- One transaction of the block: the first one scheduled, or an instruction step when none is (R39; log 5). With a fault
recorded no transaction has an effect (40_cycle.md R106). -/
def step (s : State) : Host.Outcome State Fault Refusal :=
  match s.fault, s.schedule with
  | some _, _ => .next s
  | none, [] => instrStep s
  | none, .step :: rest => instrStep { s with schedule := rest }
  | none, .tick :: rest => .next (tick { s with schedule := rest })
  | none, .inputUpdate h r :: rest => .next (inputUpdate h r { s with schedule := rest })

/-- The state with the instruction of those table bits where the next step fetches it (log 7). -/
def State.withFetchWord (s : State) (nbits w : Nat) : State := placeWord s (tableWord nbits w)

end Sys2Proof.Machine
end

