-- ==== Sys2Proof/Safety.lean ====
section
/-! DEFINITION. What claims are stated in: the invariants every step keeps, a safe step, the state a step leaves, the parked
state, the parts of the state a transition keeps, and the spec's whole-machine classes of instructions. -/

namespace Sys2Proof.Machine

/-- The entries of the call stack in use hold return addresses: PC values left by a fetch, at most 0x1000 (10_state.md R25,
R29). -/
def returnAddressesBounded (s : State) : Prop :=
  ∀ j : Nat, (h : j < 16) → s.sp.toNat ≤ j → (s.stk[j]'h).toNat ≤ 0x1000

/-- PC is at most 0x10FE, and so is every PC a return can give (10_state.md R25). -/
def pcBounded (s : State) : Prop := s.pc.toNat ≤ 0x10FE ∧ returnAddressesBounded s

/-- SP is in its legal range 0..16 (10_state.md R29). -/
def spLegal (s : State) : Prop := s.sp.toNat ≤ 16

/-- The invariant of the machine: canonical memory, legal SP, bounded PC. -/
structure State.Inv (s : State) : Prop where
  memWf : s.mem.wf
  spLegal : spLegal s
  pcBounded : pcBounded s

/-- The state one transaction leaves, a faulted one included (40_cycle.md R104; 60_exceptions.md R233). -/
def settle (s : State) : State :=
  match step s with
  | .next t => t
  | .fault f => f.final
  | .refused _ => s

/-- The state `n` transactions leave. -/
def settled (n : Nat) (s : State) : State :=
  match n with
  | 0 => s
  | k + 1 => settled k (settle s)

/-- A step that completes: it answers a next state. A faulted run is a failed run (60_exceptions.md R233). -/
def safeStep (s : State) : Prop := s.fault = none ∧ ∃ t, step s = .next t

/-- A run of `n` transactions without a fault. -/
def safeRun (n : Nat) (s : State) : Prop := ∀ k < n, safeStep (settled k s)

/-- Parked: the word at PC is a jump to PC itself (70_reset_and_hazards.md R270). -/
def parked (s : State) : Prop :=
  s.pc.toNat ≤ 0xFFE ∧ ∃ nnn : Addr12, s.fetchWord = formatA 0x1 nnn ∧ nnn.toNat = s.pc.toNat

/-! ### Frames -/

/-- The parts of the state a frame speaks of; `rand` is the model's own pair of fields behind the `rand` input (log 4). -/
inductive Part
  | v | i | pc | sp | stk | dt | st | mem | fb | held | rel | fault | errlog | legacy | rand | schedule
  deriving DecidableEq, Repr

/-- `t` agrees with `s` on every part but those in `ps`; on memory, every byte reads as before. -/
structure KeepsAllBut (ps : List Part) (s t : State) : Prop where
  v : Part.v ∉ ps → t.v = s.v
  i : Part.i ∉ ps → t.i = s.i
  pc : Part.pc ∉ ps → t.pc = s.pc
  sp : Part.sp ∉ ps → t.sp = s.sp
  stk : Part.stk ∉ ps → t.stk = s.stk
  dt : Part.dt ∉ ps → t.dt = s.dt
  st : Part.st ∉ ps → t.st = s.st
  mem : Part.mem ∉ ps → ∀ a : Nat, t.byteAt a = s.byteAt a
  fb : Part.fb ∉ ps → t.fb = s.fb
  held : Part.held ∉ ps → t.held = s.held
  rel : Part.rel ∉ ps → t.rel = s.rel
  fault : Part.fault ∉ ps → t.fault = s.fault
  errlog : Part.errlog ∉ ps → t.errlog = s.errlog
  legacy : Part.legacy ∉ ps → t.legacy = s.legacy
  rand : Part.rand ∉ ps → t.randIn = s.randIn ∧ t.draws = s.draws
  schedule : Part.schedule ∉ ps → t.schedule = s.schedule

/-- Every register but `x` is kept. -/
def keepsRegsBut (x : RegIx) (s t : State) : Prop := ∀ r : RegIx, r ≠ x → t.reg r = s.reg r

/-- Every register but `x` and VF is kept. -/
def keepsRegsButFlag (x : RegIx) (s t : State) : Prop := ∀ r : RegIx, r ≠ x → r ≠ 0xF → t.reg r = s.reg r

/-! ### Whole-machine classes of the spec -/

/-- The data accesses that reach above 0xFFF (60_exceptions.md R234). -/
def memFaults (i : Instr) (s : State) : Prop :=
  match i with
  | .drw _ _ n => 0 < n.toNat ∧ s.i.toNat + n.toNat - 1 > 0xFFF
  | .ldB _ => s.i.toNat + 2 > 0xFFF
  | .storeRegs x | .loadRegs x => s.i.toNat + x.toNat > 0xFFF
  | _ => False

/-- The key instructions whose register names no key (60_exceptions.md R234). -/
def keyFaults (i : Instr) (s : State) : Prop :=
  match i with
  | .skp x | .sknp x => (s.reg x).toNat > 15
  | _ => False

/-- The instructions that write VF as a flag (10_state.md R21). -/
def writesFlag (i : Instr) : Bool :=
  match i with
  | .addReg _ _ | .subReg _ _ | .shr _ _ | .subnReg _ _ | .shl _ _ | .addI _ | .drw _ _ _ => true
  | _ => false

/-- `r` is a register the instruction names as its destination: VX, or one of V0..VX for FX65 (10_state.md R21). -/
def namesDest (i : Instr) (r : RegIx) : Bool :=
  match i with
  | .ldImm x _ | .addImm x _ | .rnd x _ => r == x
  | .ldReg x _ | .orReg x _ | .andReg x _ | .xorReg x _ | .addReg x _ | .subReg x _ | .shr x _ | .subnReg x _
  | .shl x _ => r == x
  | .ldVxDt x | .ldVxK x => r == x
  | .loadRegs x => decide (r.toNat ≤ x.toNat)
  | _ => false

/-- The skips (10_state.md R24). -/
def isSkip (i : Instr) : Bool :=
  match i with
  | .seImm _ _ | .sneImm _ _ | .seReg _ _ | .sneReg _ _ | .skp _ | .sknp _ => true
  | _ => false

/-- The operand fields of an instruction are those of the word `w`, counted from bit 0 (30_encoding.md R72): X is
`w[11:8]`, Y is `w[7:4]`, N is `w[3:0]`, NN is `w[7:0]`, NNN is `w[11:0]`. -/
def fieldsFrom (w : Word) (i : Instr) : Prop :=
  match i with
  | .cls | .ret => True
  | .jp nnn | .call nnn | .ldI nnn | .jpV0 nnn => nnn.toNat = w.toNat % 0x1000
  | .seImm x nn | .sneImm x nn | .ldImm x nn | .addImm x nn | .rnd x nn =>
    x.toNat = w.toNat / 0x100 % 0x10 ∧ nn.toNat = w.toNat % 0x100
  | .seReg x y | .ldReg x y | .orReg x y | .andReg x y | .xorReg x y | .addReg x y | .subReg x y | .shr x y
  | .subnReg x y | .shl x y | .sneReg x y => x.toNat = w.toNat / 0x100 % 0x10 ∧ y.toNat = w.toNat / 0x10 % 0x10
  | .drw x y n => x.toNat = w.toNat / 0x100 % 0x10 ∧ y.toNat = w.toNat / 0x10 % 0x10 ∧ n.toNat = w.toNat % 0x10
  | .skp x | .sknp x | .ldVxDt x | .ldVxK x | .ldDtVx x | .ldStVx x | .addI x | .ldF x | .ldB x | .storeRegs x
  | .loadRegs x => x.toNat = w.toNat / 0x100 % 0x10
  | .unmatched u => u = w

/-- The sprite of DXYN has a set bit at column `cx`, row `cy`: bit `7 - (cx - x0)` of its byte for row `cy - y0`
(44_display.md R191, R192). -/
def spriteCovers (s : State) (x y : RegIx) (n : Nibble) (cx cy : Nat) : Prop :=
  let x0 := (s.reg x).toNat % 64
  let y0 := (s.reg y).toNat % 32
  x0 ≤ cx ∧ cx < x0 + 8 ∧ y0 ≤ cy ∧ cy < y0 + n.toNat ∧
    (s.byteAt (s.i.toNat + (cy - y0))).getLsbD (7 - (cx - x0)) = true

end Sys2Proof.Machine
end

