-- ==== Sys2Proof/Certificates/Slice0/Obligations.lean ====
section
/-! DEFINITION. The statements for the provers. A statement about `exec` speaks of the state left by the fetch, where PC holds
the instruction's address plus 2 (10_state.md R23). -/

open Sys2Proof Sys2Proof.Machine

/-! ### Encoding (30_encoding.md, 40_cycle.md §2) -/

/-- R70, R74: the decoder reads back every well-formed instruction from its bytes, whatever follows them. -/
def Obligations.DecodeEncodeRoundTrip : Prop :=
  ∀ (i : Instr) (rest : List Byte), i.wellFormed = true → decodeBytes (encodeBytes i ++ rest) = .ok (i, rest)

/-- R74, R76: every word is the encoding of the instruction it decodes to. -/
def Obligations.EncodeDecodeRoundTrip : Prop :=
  ∀ w : Word, encode (decode w) = w

/-- R102: decode extracts the fields of R72 and selects the one row whose fixed bits the word has, or unmatched. -/
def Obligations.DecodeSelectsRowAndFields : Prop :=
  ∀ w : Word, fieldsFrom w (decode w) ∧
    (∀ r ∈ opcodeRows, (w &&& r.mask = r.value ↔ (decode w).mnemonic = r.mnemonic)) ∧
    ((∀ r ∈ opcodeRows, w &&& r.mask ≠ r.value) ↔ decode w = .unmatched w)

/-- R75, R76: the unmatched words are exactly those of the six spaces R76 lists, and no decoded instruction is ill formed. That
5XYn and 9XYn with n not 0 are among them is the spec's own decision D12 (log 10). -/
def Obligations.UnmatchedWordsExactly : Prop :=
  ∀ w : Word, (decode w = .unmatched w ↔ isUnmatchedWord w = true) ∧ (decode w).wellFormed = true

/-- Words written out from the patterns of R74 decode to their instructions; that 0x5121 is unmatched is the spec's own decision
D12 (log 10). -/
def Obligations.SampleWordsDecode : Prop :=
  decode 0x00E0 = .cls ∧ decode 0x2ABC = .call 0xABC ∧ decode 0x6A42 = .ldImm 0xA 0x42 ∧
    decode 0x8126 = .shr 0x1 0x2 ∧ decode 0xF255 = .storeRegs 0x2 ∧ decode 0xD125 = .drw 0x1 0x2 0x5 ∧
    decode 0xE1A1 = .sknp 0x1 ∧ decode 0x5121 = .unmatched 0x5121

/-! ### The step (40_cycle.md) -/

/-- R100, R103, R104: when the two bytes at PC decode to an instruction, the step runs it on the state with PC advanced by 2,
be the step the scheduled transaction or nothing scheduled (the schedule is the model's own, log 5). -/
def Obligations.StepRunsDecodedInstruction : Prop :=
  ∀ (s : State) (i : Instr), s.fault = none → s.pc.toNat ≤ 0xFFE →
    decodeBytes [s.byteAt s.pc.toNat, s.byteAt (s.pc.toNat + 1)] = .ok (i, []) →
    (s.schedule = [] → step s = exec i { s with pc := s.pc + 2 }) ∧
    (∀ rest, s.schedule = .step :: rest → step s = exec i { s with pc := s.pc + 2, schedule := rest })

/-- R101: a step that begins with PC above 0xFFE faults with nothing changed but `FAULT` (the spec's own decisions D3, D6,
log 10). -/
def Obligations.FetchOutOfRangeFaults : Prop :=
  ∀ s : State, s.fault = none → s.schedule = [] → s.pc.toNat > 0xFFE →
    step s = .fault (.fetchOutOfRange { s with fault := some ⟨.fetchOutOfRange, s.pc⟩ })

/-- R105: the step of a word that no row matches only advances PC by 2; `exec` completes on every state. -/
def Obligations.UnmatchedWordOnlyAdvancesPc : Prop :=
  (∀ s : State, s.fault = none → s.schedule = [] → s.pc.toNat ≤ 0xFFE →
    (∀ r ∈ opcodeRows, s.fetchWord &&& r.mask ≠ r.value) → step s = .next { s with pc := s.pc + 2 }) ∧
  (∀ (w : Word) (s : State), exec (.unmatched w) s = .next s)

/-- R35, R106: with a fault recorded no transaction has an effect (the spec's own decision D6, log 10). -/
def Obligations.FaultedMachineIgnoresTransactions : Prop :=
  ∀ (s : State) (r : FaultRecord) (h k : BitVec 16), s.fault = some r →
    step s = .next s ∧ tick s = s ∧ inputUpdate h k s = s

/-- R104: a step ends in a next state or a fault; there is no third outcome. -/
def Obligations.StepNeverRefuses : Prop :=
  ∀ (s : State) (r : Refusal), step s ≠ .refused r

/-- R24: an instruction step adds 2 to PC, then leaves it, adds 2 more for a skip, replaces it by the target of one of the four
transfers, or takes the 2 off again for FX0A with no key released. A transfer abandoned for a stack error leaves it (R231).
The unmasked BNNN sum, the entry a return pops and going on after a stack error are the spec's own decisions D11, D13, D14
(log 10). -/
def Obligations.PcAfterInstruction : Prop :=
  ∀ (i : Instr) (s t : State), s.fault = none → s.schedule = [] → decode s.fetchWord = i → step s = .next t →
    (isSkip i = true → t.pc.toNat = s.pc.toNat + 2 ∨ t.pc.toNat = s.pc.toNat + 4) ∧
    (∀ x, i = .ldVxK x → t.pc.toNat = if (∃ k, k < 16 ∧ s.keyReleased k = true) then s.pc.toNat + 2 else s.pc.toNat) ∧
    (∀ nnn, (i = .jp nnn ∨ i = .call nnn ∧ s.sp ≠ 0) → t.pc.toNat = nnn.toNat) ∧
    (∀ nnn, i = .jpV0 nnn →
      t.pc.toNat = nnn.toNat + (s.reg (if s.legacy then 0 else nnn.extractLsb' 8 4)).toNat) ∧
    (∀ h : s.sp.toNat < 16, i = .ret → t.pc = s.stk[s.sp.toNat]'h) ∧
    (isSkip i = false → (∀ x, i ≠ .ldVxK x) → (∀ nnn, i ≠ .jp nnn ∧ i ≠ .jpV0 nnn ∧ (i = .call nnn → s.sp = 0)) →
      (i = .ret → s.sp.toNat ≥ 16) → t.pc.toNat = s.pc.toNat + 2)

/-- R270: a parked state is left unchanged by its own step (the notion is the spec's own decision D35, log 10). -/
def Obligations.ParkedStateStepsToItself : Prop :=
  ∀ s : State, s.fault = none → s.schedule = [] → parked s → step s = .next s

/-- R39 (the schedule is the model's own, log 5): the scheduled tick or input update is the whole step. -/
def Obligations.ScheduledTransactionIsTheStep : Prop :=
  ∀ (s : State) (rest : List Transaction), s.fault = none →
    (s.schedule = .tick :: rest →
      ∃ t, step s = .next t ∧ t.dt.toNat = s.dt.toNat - 1 ∧ t.st.toNat = s.st.toNat - 1 ∧ t.schedule = rest ∧
        KeepsAllBut [.dt, .st, .schedule] s t) ∧
    (∀ h k, s.schedule = .inputUpdate h k :: rest →
      ∃ t, step s = .next t ∧ t.held = h ∧ t.rel = k ∧ t.schedule = rest ∧
        KeepsAllBut [.held, .rel, .schedule] s t)

/-! ### Faults and errors (60_exceptions.md) -/

/-- R233: a faulting step leaves everything as before it but `FAULT`, which records the kind and the PC of the step, and from
then on no transaction changes the state (the schedule is the model's own, log 5; the faults are the spec's own decisions D3 to
D6, log 10). -/
def Obligations.FaultsArePrecise : Prop :=
  ∀ (s : State) (f : Fault), step s = .fault f →
    s.fault = none ∧ KeepsAllBut [.fault, .schedule] s f.final ∧ f.final.fault = some ⟨f.kind, s.pc⟩ ∧
    faultOut f.final = some ⟨f.kind, s.pc⟩ ∧ step f.final = .next f.final ∧ tick f.final = f.final ∧
    ∀ h k, inputUpdate h k f.final = f.final

/-- R234: which instructions raise which fault, and when (the spec's own decisions D3 to D5, log 10). -/
def Obligations.FaultCauses : Prop :=
  (∀ (i : Instr) (s : State),
    ((∃ f, exec i s = .fault f ∧ f.kind = .memOutOfRange) ↔ memFaults i s) ∧
    ((∃ f, exec i s = .fault f ∧ f.kind = .keyOutOfRange) ↔ keyFaults i s) ∧
    (∀ f, exec i s = .fault f → f.kind ≠ .fetchOutOfRange ∧ f.final.fault = some ⟨f.kind, s.pc - 2⟩)) ∧
  (∀ s : State, s.fault = none → s.schedule = [] →
    ((∃ f, step s = .fault f ∧ f.kind = .fetchOutOfRange) ↔ s.pc.toNat > 0xFFE) ∧
    (∀ f, step s = .fault f → f.final.fault = some ⟨f.kind, s.pc⟩))

/-- R231, R232: 2NNN with SP = 0 and 00EE with SP = 16 report their error and change nothing else; no other instruction, and
neither of the two with room or an entry, reports anything (the report is the spec's own decisions D14, D31, log 10). -/
def Obligations.ErrorReports : Prop :=
  ∀ s : State, spLegal s →
    (∀ nnn, s.sp = 0 → exec (.call nnn) s = .next { s with errlog := s.errlog ++ [⟨.stackOverflow, s.pc - 2⟩] }) ∧
    (s.sp = 16 → exec .ret s = .next { s with errlog := s.errlog ++ [⟨.stackUnderflow, s.pc - 2⟩] }) ∧
    (∀ i t, exec i s = .next t → (∀ nnn, i = .call nnn → s.sp ≠ 0) → (i = .ret → s.sp ≠ 16) → t.errlog = s.errlog)

/-- R36: `ERRLOG` is append-only (that errors are kept as a log is the spec's own decision D31, log 10). -/
def Obligations.ErrlogIsAppendOnly : Prop :=
  ∀ s t : State, step s = .next t → ∃ more, t.errlog = s.errlog ++ more

/-! ### Invariants of every step -/

/-- Memory stays in its canonical form (the form is the model's, log 6), also through a fault. -/
def Obligations.StepKeepsMemoryCanonical : Prop :=
  ∀ s : State, s.mem.wf → (∀ t, step s = .next t → t.mem.wf) ∧ (∀ f, step s = .fault f → f.final.mem.wf)

/-- R29: no rule can make SP leave 0..16 (how SP counts is the spec's own decision D13, log 10). -/
def Obligations.StepKeepsStackPointerLegal : Prop :=
  ∀ s : State, spLegal s → (∀ t, step s = .next t → spLegal t) ∧ (∀ f, step s = .fault f → spLegal f.final)

/-- R25: PC never exceeds 0x10FE, the return addresses in use never exceed 0x1000. The bound rests on the spec's own decisions D3,
D11 and D13 (log 10). -/
def Obligations.StepKeepsPcBounded : Prop :=
  ∀ s : State, pcBounded s → (∀ t, step s = .next t → pcBounded t) ∧ (∀ f, step s = .fault f → pcBounded f.final)

/-- R40: the state after reset meets the three invariants; the canonical form is the model's (log 6), how SP counts the spec's own
decision D13 (log 10). -/
def Obligations.ResetMeetsInvariants : Prop :=
  State.reset.Inv

/-- R261: `LEGACY` is the one the load is given, and no transaction changes it. -/
def Obligations.StepKeepsConfiguration : Prop :=
  (∀ (s : State) (h r : BitVec 16),
    (settle s).legacy = s.legacy ∧ (tick s).legacy = s.legacy ∧ (inputUpdate h r s).legacy = s.legacy) ∧
  (∀ (legacy : Bool) (memInit : Nat → Byte) (font : Vector Byte 80) (rom : Option (List Byte)) (t : State),
    load legacy memInit font rom = .next t → t.legacy = legacy)

/-- R262: every load that is not refused gives a state that meets the three invariants; the canonical form is the model's (log 6),
how SP counts the spec's own decision D13 (log 10). -/
def Obligations.LoadMeetsInvariants : Prop :=
  ∀ (legacy : Bool) (memInit : Nat → Byte) (font : Vector Byte 80) (rom : Option (List Byte)) (t : State),
    load legacy memInit font rom = .next t → t.Inv

/-! ### Registers and units over all instructions -/

/-- R20, R21, R22: a flag writer leaves 0 or 1 in VF; no other instruction writes VF except as a named destination; no register
is written but a named destination and a flag. That the flag is written last when X = F is the spec's own decision D7 (log 10). -/
def Obligations.RegisterAndFlagWriters : Prop :=
  ∀ (i : Instr) (s t : State), exec i s = .next t →
    (writesFlag i = true → t.reg 0xF = 0 ∨ t.reg 0xF = 1) ∧
    (writesFlag i = false → namesDest i 0xF = false → t.reg 0xF = s.reg 0xF) ∧
    (∀ r, r ≠ 0xF → namesDest i r = false → t.reg r = s.reg r)

/-- R28, R31, R32, R33, R51, R196, R242: each unit is written only by its own instructions. -/
def Obligations.UnitsWrittenOnlyByTheirInstructions : Prop :=
  ∀ (i : Instr) (s t : State), exec i s = .next t →
    ((∀ x, i ≠ .ldB x ∧ i ≠ .storeRegs x) → ∀ a : Nat, t.byteAt a = s.byteAt a) ∧
    (i ≠ .cls → (∀ x y n, i ≠ .drw x y n) → t.fb = s.fb) ∧
    ((∀ nnn, i ≠ .call nnn) → t.stk = s.stk) ∧
    ((∀ nnn, i ≠ .call nnn) → i ≠ .ret → t.sp = s.sp) ∧
    ((∀ x, i ≠ .ldDtVx x) → t.dt = s.dt) ∧ ((∀ x, i ≠ .ldStVx x) → t.st = s.st) ∧
    ((∀ nnn, i ≠ .ldI nnn) → (∀ x, i ≠ .addI x ∧ i ≠ .ldF x) →
      (s.legacy = true → ∀ x, i ≠ .storeRegs x ∧ i ≠ .loadRegs x) → t.i = s.i) ∧
    t.held = s.held ∧ t.rel = s.rel ∧ t.fault = s.fault ∧ t.legacy = s.legacy ∧ t.schedule = s.schedule

/-! ### Control flow (41_control_flow.md) -/

/-- R124: JP. -/
def Obligations.JumpSetsPc : Prop :=
  ∀ (nnn : Addr12) (s : State), ∃ t, exec (.jp nnn) s = .next t ∧ t.pc.toNat = nnn.toNat ∧ KeepsAllBut [.pc] s t

/-- R121, R125: CALL pushes the address after it and jumps; with a full stack it reports and goes on. Which entry is written and
the form of the report are the spec's own decisions D13, D14, D31 (log 10). -/
def Obligations.CallPushesReturnAddress : Prop :=
  ∀ (nnn : Addr12) (s : State),
    (0 < s.sp.toNat → s.sp.toNat ≤ 16 → ∃ t, exec (.call nnn) s = .next t ∧ t.pc.toNat = nnn.toNat ∧
      t.sp.toNat = s.sp.toNat - 1 ∧
      (∀ (j : Nat) (h : j < 16), t.stk[j]'h = if j = s.sp.toNat - 1 then s.pc else s.stk[j]'h) ∧
      KeepsAllBut [.pc, .sp, .stk] s t) ∧
    (s.sp.toNat = 0 → ∃ t, exec (.call nnn) s = .next t ∧ t.errlog = s.errlog ++ [⟨.stackOverflow, s.pc - 2⟩] ∧
      KeepsAllBut [.errlog] s t)

/-- R122, R123: RET pops the return address; with an empty stack it reports and goes on. Which entry is read and the form of the
report are the spec's own decisions D13, D14, D31 (log 10). -/
def Obligations.RetPopsReturnAddress : Prop :=
  ∀ s : State,
    (∀ h : s.sp.toNat < 16, ∃ t, exec .ret s = .next t ∧ t.pc = s.stk[s.sp.toNat]'h ∧
      t.sp.toNat = s.sp.toNat + 1 ∧ KeepsAllBut [.pc, .sp] s t) ∧
    (s.sp.toNat ≥ 16 → ∃ t, exec .ret s = .next t ∧ t.errlog = s.errlog ++ [⟨.stackUnderflow, s.pc - 2⟩] ∧
      KeepsAllBut [.errlog] s t)

/-- R123, R125: a return resumes after the call that pushed its address, whatever PC and registers the subroutine left. -/
def Obligations.ReturnResumesAfterCall : Prop :=
  ∀ (nnn : Addr12) (s : State), 0 < s.sp.toNat → s.sp.toNat ≤ 16 →
    ∃ t, exec (.call nnn) s = .next t ∧ ∀ (q : Word) (v : Vector Byte 16),
      ∃ u, exec .ret { t with pc := q, v := v } = .next u ∧ u.pc = s.pc ∧ u.sp = s.sp ∧
        KeepsAllBut [.v, .stk] s u

/-- R120, R126 to R129: the compares skip one word when their condition holds. -/
def Obligations.ComparesSkipOneWord : Prop :=
  ∀ (x y : RegIx) (nn : Byte) (s : State),
    (∃ t, exec (.seImm x nn) s = .next t ∧
      t.pc.toNat = (if (s.reg x).toNat = nn.toNat then (s.pc.toNat + 2) % 65536 else s.pc.toNat) ∧ KeepsAllBut [.pc] s t) ∧
    (∃ t, exec (.sneImm x nn) s = .next t ∧
      t.pc.toNat = (if (s.reg x).toNat ≠ nn.toNat then (s.pc.toNat + 2) % 65536 else s.pc.toNat) ∧ KeepsAllBut [.pc] s t) ∧
    (∃ t, exec (.seReg x y) s = .next t ∧
      t.pc.toNat = (if (s.reg x).toNat = (s.reg y).toNat then (s.pc.toNat + 2) % 65536 else s.pc.toNat) ∧
      KeepsAllBut [.pc] s t) ∧
    (∃ t, exec (.sneReg x y) s = .next t ∧
      t.pc.toNat = (if (s.reg x).toNat ≠ (s.reg y).toNat then (s.pc.toNat + 2) % 65536 else s.pc.toNat) ∧
      KeepsAllBut [.pc] s t)

/-- R130: BNNN adds V0 (legacy) or the register of NNN's top nibble (modern), without a 12-bit mask (the spec's own decision D11,
log 10). -/
def Obligations.JumpWithOffset : Prop :=
  ∀ (nnn : Addr12) (s : State), ∃ t, exec (.jpV0 nnn) s = .next t ∧
    (s.legacy = true → t.pc.toNat = nnn.toNat + (s.reg 0).toNat) ∧
    (s.legacy = false → ∀ x : RegIx, x.toNat = nnn.toNat / 0x100 → t.pc.toNat = nnn.toNat + (s.reg x).toNat) ∧
    KeepsAllBut [.pc] s t

/-! ### Arithmetic-logic unit (42_alu.md) -/

/-- R141, R143: the register loads. -/
def Obligations.RegisterLoads : Prop :=
  ∀ (x y : RegIx) (nn : Byte) (s : State),
    (∃ t, exec (.ldImm x nn) s = .next t ∧ t.reg x = nn ∧ keepsRegsBut x s t ∧ KeepsAllBut [.v] s t) ∧
    (∃ t, exec (.ldReg x y) s = .next t ∧ t.reg x = s.reg y ∧ keepsRegsBut x s t ∧ KeepsAllBut [.v] s t)

/-- R142: 7XNN adds modulo 256 and writes no flag. -/
def Obligations.AddImmediateWritesNoFlag : Prop :=
  ∀ (x : RegIx) (nn : Byte) (s : State), ∃ t, exec (.addImm x nn) s = .next t ∧
    (t.reg x).toNat = ((s.reg x).toNat + nn.toNat) % 256 ∧ keepsRegsBut x s t ∧ KeepsAllBut [.v] s t

/-- R144 to R146: the bitwise operations, bit by bit; no flag. -/
def Obligations.LogicOperationsWriteNoFlag : Prop :=
  ∀ (x y : RegIx) (s : State),
    (∃ t, exec (.orReg x y) s = .next t ∧
      (∀ k : Nat, (t.reg x).getLsbD k = ((s.reg x).getLsbD k || (s.reg y).getLsbD k)) ∧
      keepsRegsBut x s t ∧ KeepsAllBut [.v] s t) ∧
    (∃ t, exec (.andReg x y) s = .next t ∧
      (∀ k : Nat, (t.reg x).getLsbD k = ((s.reg x).getLsbD k && (s.reg y).getLsbD k)) ∧
      keepsRegsBut x s t ∧ KeepsAllBut [.v] s t) ∧
    (∃ t, exec (.xorReg x y) s = .next t ∧
      (∀ k : Nat, (t.reg x).getLsbD k = ((s.reg x).getLsbD k ^^ (s.reg y).getLsbD k)) ∧
      keepsRegsBut x s t ∧ KeepsAllBut [.v] s t)

/-- R147, R22: the sum modulo 256, then the carry in VF, which wins when X = F (the spec's own decision D7, log 10). -/
def Obligations.AddSetsCarry : Prop :=
  ∀ (x y : RegIx) (s : State), ∃ t, exec (.addReg x y) s = .next t ∧
    (x ≠ 0xF → (t.reg x).toNat = ((s.reg x).toNat + (s.reg y).toNat) % 256) ∧
    (t.reg 0xF).toNat = (if (s.reg x).toNat + (s.reg y).toNat > 255 then 1 else 0) ∧
    keepsRegsButFlag x s t ∧ KeepsAllBut [.v] s t

/-- R148, R150, R22: the differences modulo 256, then the no-borrow flag in VF, which wins when X = F (the spec's own decision D7,
log 10). -/
def Obligations.SubtractionsSetNoBorrow : Prop :=
  ∀ (x y : RegIx) (s : State),
    (∃ t, exec (.subReg x y) s = .next t ∧
      (x ≠ 0xF → (t.reg x).toNat = ((s.reg x).toNat + 256 - (s.reg y).toNat) % 256) ∧
      (t.reg 0xF).toNat = (if (s.reg x).toNat ≥ (s.reg y).toNat then 1 else 0) ∧
      keepsRegsButFlag x s t ∧ KeepsAllBut [.v] s t) ∧
    (∃ t, exec (.subnReg x y) s = .next t ∧
      (x ≠ 0xF → (t.reg x).toNat = ((s.reg y).toNat + 256 - (s.reg x).toNat) % 256) ∧
      (t.reg 0xF).toNat = (if (s.reg y).toNat ≥ (s.reg x).toNat then 1 else 0) ∧
      keepsRegsButFlag x s t ∧ KeepsAllBut [.v] s t)

/-- R149: 8XY6 halves VY (legacy) or VX (modern); VF is the bit shifted out (the spec's own decisions D7, D8, log 10). -/
def Obligations.ShiftRightOperandAndFlag : Prop :=
  ∀ (x y : RegIx) (s : State), ∃ t, exec (.shr x y) s = .next t ∧
    (∀ a : Byte, a = (if s.legacy = true then s.reg y else s.reg x) →
      (x ≠ 0xF → (t.reg x).toNat = a.toNat / 2) ∧ (t.reg 0xF).toNat = a.toNat % 2) ∧
    keepsRegsButFlag x s t ∧ KeepsAllBut [.v] s t

/-- R151: 8XYE doubles VY (legacy) or VX (modern) modulo 256; VF is the bit shifted out (the spec's own decisions D7, D8,
log 10). -/
def Obligations.ShiftLeftOperandAndFlag : Prop :=
  ∀ (x y : RegIx) (s : State), ∃ t, exec (.shl x y) s = .next t ∧
    (∀ a : Byte, a = (if s.legacy = true then s.reg y else s.reg x) →
      (x ≠ 0xF → (t.reg x).toNat = 2 * a.toNat % 256) ∧ (t.reg 0xF).toNat = a.toNat / 128) ∧
    keepsRegsButFlag x s t ∧ KeepsAllBut [.v] s t

/-- R152: CXNN makes one draw and masks it. The draw is the head of `randIn`, any byte, or a free byte when none is listed: the
form is the model's own (log 4). -/
def Obligations.RandomByteIsMasked : Prop :=
  ∀ (x : RegIx) (nn : Byte) (s : State), ∃ t, exec (.rnd x nn) s = .next t ∧
    (∀ r rest, s.randIn = r :: rest → t.reg x = r &&& nn ∧ t.randIn = rest ∧ t.draws = s.draws) ∧
    (s.randIn = [] → t.reg x = Config.freeByte s.draws &&& nn ∧ t.randIn = [] ∧ t.draws = s.draws + 1) ∧
    (∀ k : Nat, nn.getLsbD k = false → (t.reg x).getLsbD k = false) ∧
    keepsRegsBut x s t ∧ KeepsAllBut [.v, .rand] s t

/-! ### Index register and memory (20_memory.md, 43_index_memory.md) -/

/-- R171: ANNN. -/
def Obligations.LoadIndexImmediate : Prop :=
  ∀ (nnn : Addr12) (s : State), ∃ t, exec (.ldI nnn) s = .next t ∧ t.i.toNat = nnn.toNat ∧ KeepsAllBut [.i] s t

/-- R172: FX1E stores the sum modulo 65536 and sets VF from the unmasked sum; the old VF is the addend when X = F (the spec's own
decisions D7, D9, log 10). -/
def Obligations.AddIndexSetsOverflow : Prop :=
  ∀ (x : RegIx) (s : State), ∃ t, exec (.addI x) s = .next t ∧
    t.i.toNat = (s.i.toNat + (s.reg x).toNat) % 65536 ∧
    (t.reg 0xF).toNat = (if s.i.toNat + (s.reg x).toNat > 0xFFF then 1 else 0) ∧
    keepsRegsBut 0xF s t ∧ KeepsAllBut [.i, .v] s t

/-- R173: FX29 points I at the glyph of the low nibble. -/
def Obligations.LoadGlyphAddress : Prop :=
  ∀ (x : RegIx) (s : State), ∃ t, exec (.ldF x) s = .next t ∧
    t.i.toNat = 0x050 + (s.reg x).toNat % 16 * 5 ∧ KeepsAllBut [.i] s t

/-- R174: FX33 stores the three decimal digits at I, I+1, I+2 and changes nothing else; out of range it faults, writing nothing
(R55, R233: the spec's own decisions D4, D6, log 10). -/
def Obligations.BcdStoresThreeDigits : Prop :=
  ∀ (x : RegIx) (s : State),
    (s.i.toNat + 2 ≤ 0xFFF → ∃ t, exec (.ldB x) s = .next t ∧
      (t.byteAt s.i.toNat).toNat = (s.reg x).toNat / 100 ∧
      (t.byteAt (s.i.toNat + 1)).toNat = (s.reg x).toNat / 10 % 10 ∧
      (t.byteAt (s.i.toNat + 2)).toNat = (s.reg x).toNat % 10 ∧
      (∀ a : Nat, a < s.i.toNat ∨ s.i.toNat + 2 < a → t.byteAt a = s.byteAt a) ∧ KeepsAllBut [.mem] s t) ∧
    (s.i.toNat + 2 > 0xFFF → exec (.ldB x) s =
      .fault (.memOutOfRange { s with pc := s.pc - 2, fault := some ⟨.memOutOfRange, s.pc - 2⟩ }))

/-- R175, R176: FX55 stores V0..VX at I, I+1, … and changes no other byte; in legacy mode I moves past them; out of range it
faults, writing nothing (R55, R233: the spec's own decisions D4, D6, log 10). -/
def Obligations.StoreRegistersBlock : Prop :=
  ∀ (x : RegIx) (s : State),
    (s.i.toNat + x.toNat ≤ 0xFFF → ∃ t, exec (.storeRegs x) s = .next t ∧
      (∀ k : RegIx, k.toNat ≤ x.toNat → t.byteAt (s.i.toNat + k.toNat) = s.reg k) ∧
      (∀ a : Nat, a < s.i.toNat ∨ s.i.toNat + x.toNat < a → t.byteAt a = s.byteAt a) ∧
      t.i.toNat = (if s.legacy = true then s.i.toNat + x.toNat + 1 else s.i.toNat) ∧ KeepsAllBut [.mem, .i] s t) ∧
    (s.i.toNat + x.toNat > 0xFFF → exec (.storeRegs x) s =
      .fault (.memOutOfRange { s with pc := s.pc - 2, fault := some ⟨.memOutOfRange, s.pc - 2⟩ }))

/-- R175, R177: FX65 loads V0..VX from I, I+1, … and keeps the other registers; in legacy mode I moves past them; out of range
it faults, writing nothing (R55, R233: the spec's own decisions D4, D6, log 10). -/
def Obligations.LoadRegistersBlock : Prop :=
  ∀ (x : RegIx) (s : State),
    (s.i.toNat + x.toNat ≤ 0xFFF → ∃ t, exec (.loadRegs x) s = .next t ∧
      (∀ k : RegIx, t.reg k = if k.toNat ≤ x.toNat then s.byteAt (s.i.toNat + k.toNat) else s.reg k) ∧
      t.i.toNat = (if s.legacy = true then s.i.toNat + x.toNat + 1 else s.i.toNat) ∧ KeepsAllBut [.v, .i] s t) ∧
    (s.i.toNat + x.toNat > 0xFFF → exec (.loadRegs x) s =
      .fault (.memOutOfRange { s with pc := s.pc - 2, fault := some ⟨.memOutOfRange, s.pc - 2⟩ }))

/-- R178, which the spec infers from R176 and R177: FX55 then FX65 with the same X and the same I restores V0..VX, whatever the
registers hold in between. -/
def Obligations.StoreThenLoadRestoresRegisters : Prop :=
  ∀ (x : RegIx) (s : State) (v : Vector Byte 16), s.i.toNat + x.toNat ≤ 0xFFF →
    ∃ t, exec (.storeRegs x) s = .next t ∧ ∃ u, exec (.loadRegs x) { t with i := s.i, v := v } = .next u ∧
      ∀ k : RegIx, k.toNat ≤ x.toNat → u.reg k = s.reg k

/-- R62, which the spec infers from R56 and R60: the bytes FX55 has written are what a later fetch at their addresses reads, the
first one in bits 15:8 (R56). -/
def Obligations.StoredBytesAreFetched : Prop :=
  ∀ (x : RegIx) (s : State), s.i.toNat + x.toNat ≤ 0xFFF →
    ∃ t, exec (.storeRegs x) s = .next t ∧ ∀ (q : Word) (k l : RegIx), q.toNat = s.i.toNat + k.toNat →
      l.toNat = k.toNat + 1 → l.toNat ≤ x.toNat →
      ({ t with pc := q } : State).fetchWord.toNat = 256 * (s.reg k).toNat + (s.reg l).toNat

/-- Canonical memories that read alike everywhere are equal (the form is the model's, log 6). -/
def Obligations.CanonicalMemoryIsUnique : Prop :=
  ∀ m k : Memory, m.wf → k.wf → (∀ a : Nat, a ≤ 0xFFF → m.read a = k.read a) → m = k

/-! ### Framebuffer (44_display.md) -/

/-- R190: CLS turns every pixel off and changes nothing else. -/
def Obligations.ClearTurnsAllPixelsOff : Prop :=
  ∀ s : State, ∃ t, exec .cls s = .next t ∧ (∀ x y : Nat, x < 64 → y < 32 → fbOut t x y = false) ∧ KeepsAllBut [.fb] s t

/-- R191, R192, R194, R195: DXYN flips exactly the pixels its sprite covers inside the grid; VF is 1 when one of them was on,
else 0; when one of its N bytes lies above 0xFFF it faults, changing nothing. The bit order is presumed (R192, D15); D4, D6, D7
and D16 are the spec's own decisions (log 10). -/
def Obligations.DrawXorsSprite : Prop :=
  ∀ (x y : RegIx) (n : Nibble) (s : State),
    (n.toNat = 0 ∨ s.i.toNat + n.toNat - 1 ≤ 0xFFF → ∃ t, exec (.drw x y n) s = .next t ∧
      (∀ cx cy : Nat, cx < 64 → cy < 32 →
        (spriteCovers s x y n cx cy → fbOut t cx cy = !fbOut s cx cy) ∧
        (¬ spriteCovers s x y n cx cy → fbOut t cx cy = fbOut s cx cy)) ∧
      ((∃ cx cy : Nat, cx < 64 ∧ cy < 32 ∧ spriteCovers s x y n cx cy ∧ fbOut s cx cy = true) → t.reg 0xF = 1) ∧
      ((∀ cx cy : Nat, cx < 64 → cy < 32 → spriteCovers s x y n cx cy → fbOut s cx cy = false) → t.reg 0xF = 0) ∧
      keepsRegsBut 0xF s t ∧ KeepsAllBut [.v, .fb] s t) ∧
    (0 < n.toNat → s.i.toNat + n.toNat - 1 > 0xFFF → exec (.drw x y n) s =
      .fault (.memOutOfRange { s with pc := s.pc - 2, fault := some ⟨.memOutOfRange, s.pc - 2⟩ }))

/-- R193, which the spec infers from R191 and its decision D17 (log 10): DXY0 reads no byte, changes no pixel, performs no range
check and sets VF = 0. -/
def Obligations.DrawNoRows : Prop :=
  ∀ (x y : RegIx) (s : State), ∃ t, exec (.drw x y 0) s = .next t ∧ t.fb = s.fb ∧ t.reg 0xF = 0 ∧
    keepsRegsBut 0xF s t ∧ KeepsAllBut [.v] s t

/-- R191: drawing the same sprite twice at the same place restores every pixel. -/
def Obligations.DrawTwiceRestoresPixels : Prop :=
  ∀ (x y : RegIx) (n : Nibble) (s : State), (n.toNat = 0 ∨ s.i.toNat + n.toNat - 1 ≤ 0xFFF) →
    ∃ t, exec (.drw x y n) s = .next t ∧ ∃ u, exec (.drw x y n) { t with v := s.v } = .next u ∧
      ∀ cx cy : Nat, cx < 64 → cy < 32 → fbOut u cx cy = fbOut s cx cy

/-! ### Timers and input (45_timers_input.md) -/

/-- R210 to R212: the timer instructions. -/
def Obligations.TimerInstructions : Prop :=
  ∀ (x : RegIx) (s : State),
    (∃ t, exec (.ldVxDt x) s = .next t ∧ t.reg x = s.dt ∧ keepsRegsBut x s t ∧ KeepsAllBut [.v] s t) ∧
    (∃ t, exec (.ldDtVx x) s = .next t ∧ t.dt = s.reg x ∧ KeepsAllBut [.dt] s t) ∧
    (∃ t, exec (.ldStVx x) s = .next t ∧ t.st = s.reg x ∧ KeepsAllBut [.st] s t)

/-- R214, R215: a tick takes one from each positive timer and changes nothing else; the tone output, a level only by the spec's
own decision D29 (log 10), follows the sound timer. -/
def Obligations.TickCountsDown : Prop :=
  ∀ s : State, s.fault = none →
    (tick s).dt.toNat = (if s.dt.toNat > 0 then s.dt.toNat - 1 else 0) ∧
    (tick s).st.toNat = (if s.st.toNat > 0 then s.st.toNat - 1 else 0) ∧
    (toneOut (tick s) = true ↔ s.st.toNat > 1) ∧ KeepsAllBut [.dt, .st] s (tick s)

/-- R216: the input update writes every flag of the latch and changes nothing else. -/
def Obligations.InputUpdateWritesLatch : Prop :=
  ∀ (h r : BitVec 16) (s : State), s.fault = none →
    (∀ k : Nat, k < 16 → (inputUpdate h r s).keyHeld k = h.getLsbD k ∧ (inputUpdate h r s).keyReleased k = r.getLsbD k) ∧
    KeepsAllBut [.held, .rel] s (inputUpdate h r s)

/-- R217 to R219: the key skips, and the fault when `V[X]` names no key (the spec's own decisions D5, D6, log 10). -/
def Obligations.KeySkips : Prop :=
  ∀ (x : RegIx) (s : State),
    ((s.reg x).toNat ≤ 15 →
      (∃ t, exec (.skp x) s = .next t ∧
        t.pc.toNat = (if s.keyHeld (s.reg x).toNat = true then (s.pc.toNat + 2) % 65536 else s.pc.toNat) ∧
        KeepsAllBut [.pc] s t) ∧
      (∃ t, exec (.sknp x) s = .next t ∧
        t.pc.toNat = (if s.keyHeld (s.reg x).toNat = false then (s.pc.toNat + 2) % 65536 else s.pc.toNat) ∧
        KeepsAllBut [.pc] s t)) ∧
    ((s.reg x).toNat > 15 → ∀ i, i = .skp x ∨ i = .sknp x → exec i s =
      .fault (.keyOutOfRange { s with pc := s.pc - 2, fault := some ⟨.keyOutOfRange, s.pc - 2⟩ }))

/-- R220, R221: FX0A stores the lowest released key and goes on; with none released it goes back to itself (R222). -/
def Obligations.KeyWaitTakesLowestKey : Prop :=
  ∀ (x : RegIx) (s : State),
    (∀ k : Nat, k < 16 → s.keyReleased k = true → (∀ j : Nat, j < k → s.keyReleased j = false) →
      ∃ t, exec (.ldVxK x) s = .next t ∧ (t.reg x).toNat = k ∧ keepsRegsBut x s t ∧ KeepsAllBut [.v] s t) ∧
    ((∀ k : Nat, k < 16 → s.keyReleased k = false) →
      ∃ t, exec (.ldVxK x) s = .next t ∧ t.pc = s.pc - 2 ∧ KeepsAllBut [.pc] s t)

/-- R222: a step of FX0A with no key released leaves the whole state as it was. -/
def Obligations.KeyWaitStepChangesNothing : Prop :=
  ∀ (x : RegIx) (s : State), s.fault = none → s.schedule = [] → s.pc.toNat ≤ 0xFFE →
    s.fetchWord = formatRI 0xF x 0x0A → (∀ k : Nat, k < 16 → s.keyReleased k = false) → step s = .next s

/-! ### Reset and loading (10_state.md R40, 70_reset_and_hazards.md) -/

/-- R260: every piece of state after reset. -/
def Obligations.ResetValues : Prop :=
  (∀ r : RegIx, State.reset.reg r = 0) ∧ State.reset.i = 0 ∧ State.reset.pc = 0x200 ∧ State.reset.sp = 16 ∧
    (∀ (j : Nat) (h : j < 16), State.reset.stk[j]'h = 0) ∧ State.reset.dt = 0 ∧ State.reset.st = 0 ∧
    (∀ x y : Nat, x < 64 → y < 32 → fbOut State.reset x y = false) ∧
    (∀ k : Nat, k < 16 → State.reset.keyHeld k = false ∧ State.reset.keyReleased k = false) ∧
    State.reset.fault = none ∧ State.reset.errlog = []

/-- R262, R263: a load places the ROM, the font and `MEM_INIT`, takes the configuration (R261) and resets everything else; a ROM
that is too long (the spec's own decision D20, log 10) or cannot be read is refused. -/
def Obligations.LoadPlacesImage : Prop :=
  ∀ (legacy : Bool) (memInit : Nat → Byte) (font : Vector Byte 80) (rom : List Byte),
    (rom.length ≤ 3584 → ∃ t, load legacy memInit font (some rom) = .next t ∧ t.legacy = legacy ∧
      (∀ (k : Nat) (h : k < 80), t.byteAt (0x050 + k) = font[k]'h) ∧
      (∀ (k : Nat) (h : k < rom.length), t.byteAt (0x200 + k) = rom[k]'h) ∧
      (∀ a : Nat, a ≤ 0xFFF → ¬ (0x050 ≤ a ∧ a < 0x0A0) → ¬ (0x200 ≤ a ∧ a < 0x200 + rom.length) →
        t.byteAt a = memInit a) ∧
      KeepsAllBut [.mem, .legacy] State.reset t) ∧
    (rom.length > 3584 → load legacy memInit font (some rom) = .refused .romTooLong) ∧
    load legacy memInit font none = .refused .romUnreadable
end

