-- ==== Sys2Proof/Laws/Memory.lean ====
section
/-! SUPPORT. Memory: what a read gives after a write, and that every memory operation keeps the canonical form. -/

namespace Sys2Proof.Machine

theorem Memory.read_put (m : Memory) (a b : Nat) (v : Byte) : (m.put a v).read b = if b = a then v else m.read b := by
  induction m with
  | nil => simp [Memory.put, Memory.read]
  | cons c rest ih =>
    obtain ⟨k, w⟩ := c
    unfold Memory.put
    split
    · simp [Memory.read]
    · split
      · next h => subst h; by_cases hb : b = a <;> simp [Memory.read, hb]
      · next h =>
        simp only [Memory.read, ih]
        by_cases hb : b = a
        · subst hb; simp [h]
        · simp [hb]

theorem Memory.read_erase (m : Memory) (a b : Nat) :
    (m.erase a).read b = if b = a then Memory.unlisted a else m.read b := by
  induction m with
  | nil => by_cases hb : b = a <;> simp [Memory.erase, Memory.read, hb]
  | cons c rest ih =>
    obtain ⟨k, w⟩ := c
    unfold Memory.erase at ih ⊢
    by_cases hk : k = a
    · subst hk; by_cases hb : b = k <;> simp_all [Memory.read]
    · by_cases hb : b = a
      · subst hb; simp_all [Memory.read, Ne.symm hk]
      · simp_all [Memory.read]

/-- A write is read back at its address and nowhere else (20_memory.md R52, R53). -/
theorem Memory.read_write (m : Memory) {a : Nat} (b : Nat) (v : Byte) (ha : a ≤ 0xFFF) :
    (m.write a v).read b = if b = a then v else m.read b := by
  unfold Memory.write
  rw [if_pos ha]
  split
  · next h => rw [Memory.read_erase, h]
  · rw [Memory.read_put]

/-- Consecutive bytes are read back in order, and every other address reads as before. -/
theorem Memory.read_writeBytes (bs : List Byte) (m : Memory) (a b : Nat) (ha : a + bs.length ≤ 0x1000) :
    (m.writeBytes a bs).read b = if h : a ≤ b ∧ b < a + bs.length then bs[b - a]'(by omega) else m.read b := by
  induction bs generalizing m a with
  | nil =>
    simp [Memory.writeBytes]
  | cons c rest ih =>
    simp only [List.length_cons] at ha
    unfold Memory.writeBytes
    rw [ih _ _ (by omega), Memory.read_write _ _ _ (by omega)]
    by_cases h1 : b = a
    · subst h1
      simp
    · by_cases h2 : a + 1 ≤ b ∧ b < a + 1 + rest.length
      · have h3 : a ≤ b ∧ b < a + (c :: rest).length := by simp only [List.length_cons]; omega
        have h4 : b - a = (b - (a + 1)) + 1 := by omega
        rw [dif_pos h2, dif_pos h3]
        simp [h4]
      · have h3 : ¬ (a ≤ b ∧ b < a + (c :: rest).length) := by simp only [List.length_cons]; omega
        rw [dif_neg h2, dif_neg h3, if_neg h1]

/-- The addresses a `put` lists are the old ones and its own. -/
theorem Memory.mem_put {m : Memory} {a : Nat} {v : Byte} {c : Host.Cell} (h : c ∈ m.put a v) : c = (a, v) ∨ c ∈ m := by
  induction m with
  | nil => simp_all [Memory.put]
  | cons d rest ih =>
    obtain ⟨k, w⟩ := d
    unfold Memory.put at h
    split at h
    · simpa using h
    · split at h
      · simp only [List.mem_cons] at h ⊢; tauto
      · simp only [List.mem_cons] at h ⊢
        rcases h with h | h
        · exact .inr (.inl h)
        · exact (ih h).imp id .inr

theorem Memory.put_pairwise {m : Memory} (hm : m.Pairwise (fun p q => p.1 < q.1)) (a : Nat) (v : Byte) :
    (m.put a v).Pairwise (fun p q => p.1 < q.1) := by
  induction m with
  | nil => simp [Memory.put]
  | cons d rest ih =>
    obtain ⟨k, w⟩ := d
    obtain ⟨hd, hr⟩ := List.pairwise_cons.mp hm
    unfold Memory.put
    split
    · next h =>
      refine List.pairwise_cons.mpr ⟨fun c hc => ?_, hm⟩
      rcases List.mem_cons.mp hc with rfl | hc
      · exact h
      · exact Nat.lt_trans h (hd c hc)
    · split
      · next h => subst h; exact List.pairwise_cons.mpr ⟨fun c hc => hd c hc, hr⟩
      · refine List.pairwise_cons.mpr ⟨fun c hc => ?_, ih hr⟩
        rcases Memory.mem_put hc with rfl | hc
        · show k < a; omega
        · exact hd c hc

/-- A write keeps the canonical form. -/
theorem Memory.wf_write {m : Memory} (hm : m.wf) (a : Nat) (v : Byte) : (m.write a v).wf := by
  unfold Memory.write
  split
  · next ha =>
    split
    · exact ⟨hm.1.filter _, fun c hc => hm.2 c (List.mem_filter.mp hc).1⟩
    · next hv =>
      refine ⟨Memory.put_pairwise hm.1 a v, fun c hc => ?_⟩
      rcases Memory.mem_put hc with rfl | hc
      · exact ⟨ha, hv⟩
      · exact hm.2 c hc
  · exact hm

/-- A block write keeps the canonical form. -/
theorem Memory.wf_writeBytes (bs : List Byte) {m : Memory} (hm : m.wf) (a : Nat) : (m.writeBytes a bs).wf := by
  induction bs generalizing m a with
  | nil => exact hm
  | cons c rest ih => exact ih (Memory.wf_write hm a c) (a + 1)

/-- Memory built from an image is canonical. -/
theorem Memory.wf_ofImage (image : Nat → Byte) {n : Nat} (hn : n ≤ 0x1000) : (Memory.ofImage image n).wf := by
  unfold Memory.ofImage
  refine ⟨List.Pairwise.filter _ (List.pairwise_map.mpr List.pairwise_lt_range), fun c hc => ?_⟩
  obtain ⟨h1, h2⟩ := List.mem_filter.mp hc
  obtain ⟨a, ha, rfl⟩ := List.mem_map.mp h1
  have := List.mem_range.mp ha
  exact ⟨by show a ≤ 0xFFF; omega, by simpa using h2⟩

/-- A read of a list of cells in which `a` stands at most once, with value `v` when it stands. -/
theorem Memory.read_of_mem {m : Memory} {a : Nat} {v : Byte} (hm : m.Pairwise (fun p q => p.1 < q.1)) (h : (a, v) ∈ m) :
    m.read a = v := by
  induction m with
  | nil => simp at h
  | cons d rest ih =>
    obtain ⟨k, w⟩ := d
    obtain ⟨hd, hr⟩ := List.pairwise_cons.mp hm
    rcases List.mem_cons.mp h with h | h
    · cases h; simp [Memory.read]
    · have : k < a := hd _ h
      have : ¬ a = k := by omega
      simp [Memory.read, this, ih hr h]

/-- A read of an address no cell lists. -/
theorem Memory.read_of_not_mem {m : Memory} {a : Nat} (h : ∀ c ∈ m, c.1 ≠ a) : m.read a = Memory.unlisted a := by
  induction m with
  | nil => rfl
  | cons d rest ih =>
    have := h d (by simp)
    obtain ⟨k, w⟩ := d
    have hk : ¬ a = k := fun e => this e.symm
    simp [Memory.read, hk, ih (fun c hc => h c (by simp [hc]))]

/-- Memory built from an image reads as the image. -/
theorem Memory.read_ofImage (image : Nat → Byte) {n a : Nat} (hn : n ≤ 0x1000) (ha : a < n) :
    (Memory.ofImage image n).read a = image a := by
  by_cases h : image a = Memory.unlisted a
  · rw [h]
    refine Memory.read_of_not_mem fun c hc e => ?_
    obtain ⟨h1, h2⟩ := List.mem_filter.mp hc
    obtain ⟨b, hb, rfl⟩ := List.mem_map.mp h1
    change b = a at e
    subst e
    simp [h] at h2
  · refine Memory.read_of_mem (Memory.wf_ofImage image hn).1 (List.mem_filter.mpr ⟨?_, by simpa using h⟩)
    exact List.mem_map.mpr ⟨a, List.mem_range.mpr ha, rfl⟩

end Sys2Proof.Machine
end

