-- ==== Sys2Proof/Laws/State.lean ====
section
/-! SUPPORT. One lemma per field and named update of State, so that no proof unfolds an update; and what a register reads after a
register write. -/

namespace Sys2Proof.Machine

section
variable (s : State) (x : RegIx) (b : Byte) (f : Bool) (a : Word) (k : FaultKind)

@[simp] theorem State.setReg_v : (s.setReg x b).v = s.v.set x.toNat b x.isLt := rfl
@[simp] theorem State.setReg_i : (s.setReg x b).i = s.i := rfl
@[simp] theorem State.setReg_pc : (s.setReg x b).pc = s.pc := rfl
@[simp] theorem State.setReg_sp : (s.setReg x b).sp = s.sp := rfl
@[simp] theorem State.setReg_stk : (s.setReg x b).stk = s.stk := rfl
@[simp] theorem State.setReg_dt : (s.setReg x b).dt = s.dt := rfl
@[simp] theorem State.setReg_st : (s.setReg x b).st = s.st := rfl
@[simp] theorem State.setReg_mem : (s.setReg x b).mem = s.mem := rfl
@[simp] theorem State.setReg_fb : (s.setReg x b).fb = s.fb := rfl
@[simp] theorem State.setReg_held : (s.setReg x b).held = s.held := rfl
@[simp] theorem State.setReg_rel : (s.setReg x b).rel = s.rel := rfl
@[simp] theorem State.setReg_fault : (s.setReg x b).fault = s.fault := rfl
@[simp] theorem State.setReg_errlog : (s.setReg x b).errlog = s.errlog := rfl
@[simp] theorem State.setReg_legacy : (s.setReg x b).legacy = s.legacy := rfl
@[simp] theorem State.setReg_randIn : (s.setReg x b).randIn = s.randIn := rfl
@[simp] theorem State.setReg_draws : (s.setReg x b).draws = s.draws := rfl
@[simp] theorem State.setReg_schedule : (s.setReg x b).schedule = s.schedule := rfl

@[simp] theorem State.setFlag_i : (s.setFlag f).i = s.i := rfl
@[simp] theorem State.setFlag_pc : (s.setFlag f).pc = s.pc := rfl
@[simp] theorem State.setFlag_sp : (s.setFlag f).sp = s.sp := rfl
@[simp] theorem State.setFlag_stk : (s.setFlag f).stk = s.stk := rfl
@[simp] theorem State.setFlag_dt : (s.setFlag f).dt = s.dt := rfl
@[simp] theorem State.setFlag_st : (s.setFlag f).st = s.st := rfl
@[simp] theorem State.setFlag_mem : (s.setFlag f).mem = s.mem := rfl
@[simp] theorem State.setFlag_fb : (s.setFlag f).fb = s.fb := rfl
@[simp] theorem State.setFlag_held : (s.setFlag f).held = s.held := rfl
@[simp] theorem State.setFlag_rel : (s.setFlag f).rel = s.rel := rfl
@[simp] theorem State.setFlag_fault : (s.setFlag f).fault = s.fault := rfl
@[simp] theorem State.setFlag_errlog : (s.setFlag f).errlog = s.errlog := rfl
@[simp] theorem State.setFlag_legacy : (s.setFlag f).legacy = s.legacy := rfl
@[simp] theorem State.setFlag_randIn : (s.setFlag f).randIn = s.randIn := rfl
@[simp] theorem State.setFlag_draws : (s.setFlag f).draws = s.draws := rfl
@[simp] theorem State.setFlag_schedule : (s.setFlag f).schedule = s.schedule := rfl

@[simp] theorem State.setResult_i : (s.setResult x b f).i = s.i := rfl
@[simp] theorem State.setResult_pc : (s.setResult x b f).pc = s.pc := rfl
@[simp] theorem State.setResult_sp : (s.setResult x b f).sp = s.sp := rfl
@[simp] theorem State.setResult_stk : (s.setResult x b f).stk = s.stk := rfl
@[simp] theorem State.setResult_dt : (s.setResult x b f).dt = s.dt := rfl
@[simp] theorem State.setResult_st : (s.setResult x b f).st = s.st := rfl
@[simp] theorem State.setResult_mem : (s.setResult x b f).mem = s.mem := rfl
@[simp] theorem State.setResult_fb : (s.setResult x b f).fb = s.fb := rfl
@[simp] theorem State.setResult_held : (s.setResult x b f).held = s.held := rfl
@[simp] theorem State.setResult_rel : (s.setResult x b f).rel = s.rel := rfl
@[simp] theorem State.setResult_fault : (s.setResult x b f).fault = s.fault := rfl
@[simp] theorem State.setResult_errlog : (s.setResult x b f).errlog = s.errlog := rfl
@[simp] theorem State.setResult_legacy : (s.setResult x b f).legacy = s.legacy := rfl
@[simp] theorem State.setResult_randIn : (s.setResult x b f).randIn = s.randIn := rfl
@[simp] theorem State.setResult_draws : (s.setResult x b f).draws = s.draws := rfl
@[simp] theorem State.setResult_schedule : (s.setResult x b f).schedule = s.schedule := rfl

@[simp] theorem State.setI_v : (s.setI a).v = s.v := rfl
@[simp] theorem State.setI_i : (s.setI a).i = a := rfl
@[simp] theorem State.setI_pc : (s.setI a).pc = s.pc := rfl
@[simp] theorem State.setI_sp : (s.setI a).sp = s.sp := rfl
@[simp] theorem State.setI_stk : (s.setI a).stk = s.stk := rfl
@[simp] theorem State.setI_dt : (s.setI a).dt = s.dt := rfl
@[simp] theorem State.setI_st : (s.setI a).st = s.st := rfl
@[simp] theorem State.setI_mem : (s.setI a).mem = s.mem := rfl
@[simp] theorem State.setI_fb : (s.setI a).fb = s.fb := rfl
@[simp] theorem State.setI_held : (s.setI a).held = s.held := rfl
@[simp] theorem State.setI_rel : (s.setI a).rel = s.rel := rfl
@[simp] theorem State.setI_fault : (s.setI a).fault = s.fault := rfl
@[simp] theorem State.setI_errlog : (s.setI a).errlog = s.errlog := rfl
@[simp] theorem State.setI_legacy : (s.setI a).legacy = s.legacy := rfl
@[simp] theorem State.setI_randIn : (s.setI a).randIn = s.randIn := rfl
@[simp] theorem State.setI_draws : (s.setI a).draws = s.draws := rfl
@[simp] theorem State.setI_schedule : (s.setI a).schedule = s.schedule := rfl

@[simp] theorem State.setPc_v : (s.setPc a).v = s.v := rfl
@[simp] theorem State.setPc_i : (s.setPc a).i = s.i := rfl
@[simp] theorem State.setPc_pc : (s.setPc a).pc = a := rfl
@[simp] theorem State.setPc_sp : (s.setPc a).sp = s.sp := rfl
@[simp] theorem State.setPc_stk : (s.setPc a).stk = s.stk := rfl
@[simp] theorem State.setPc_dt : (s.setPc a).dt = s.dt := rfl
@[simp] theorem State.setPc_st : (s.setPc a).st = s.st := rfl
@[simp] theorem State.setPc_mem : (s.setPc a).mem = s.mem := rfl
@[simp] theorem State.setPc_fb : (s.setPc a).fb = s.fb := rfl
@[simp] theorem State.setPc_held : (s.setPc a).held = s.held := rfl
@[simp] theorem State.setPc_rel : (s.setPc a).rel = s.rel := rfl
@[simp] theorem State.setPc_fault : (s.setPc a).fault = s.fault := rfl
@[simp] theorem State.setPc_errlog : (s.setPc a).errlog = s.errlog := rfl
@[simp] theorem State.setPc_legacy : (s.setPc a).legacy = s.legacy := rfl
@[simp] theorem State.setPc_randIn : (s.setPc a).randIn = s.randIn := rfl
@[simp] theorem State.setPc_draws : (s.setPc a).draws = s.draws := rfl
@[simp] theorem State.setPc_schedule : (s.setPc a).schedule = s.schedule := rfl

@[simp] theorem State.withFault_v : (s.withFault k a).v = s.v := rfl
@[simp] theorem State.withFault_i : (s.withFault k a).i = s.i := rfl
@[simp] theorem State.withFault_pc : (s.withFault k a).pc = a := rfl
@[simp] theorem State.withFault_sp : (s.withFault k a).sp = s.sp := rfl
@[simp] theorem State.withFault_stk : (s.withFault k a).stk = s.stk := rfl
@[simp] theorem State.withFault_dt : (s.withFault k a).dt = s.dt := rfl
@[simp] theorem State.withFault_st : (s.withFault k a).st = s.st := rfl
@[simp] theorem State.withFault_mem : (s.withFault k a).mem = s.mem := rfl
@[simp] theorem State.withFault_fb : (s.withFault k a).fb = s.fb := rfl
@[simp] theorem State.withFault_held : (s.withFault k a).held = s.held := rfl
@[simp] theorem State.withFault_rel : (s.withFault k a).rel = s.rel := rfl
@[simp] theorem State.withFault_fault : (s.withFault k a).fault = some ⟨k, a⟩ := rfl
@[simp] theorem State.withFault_errlog : (s.withFault k a).errlog = s.errlog := rfl
@[simp] theorem State.withFault_legacy : (s.withFault k a).legacy = s.legacy := rfl
@[simp] theorem State.withFault_randIn : (s.withFault k a).randIn = s.randIn := rfl
@[simp] theorem State.withFault_draws : (s.withFault k a).draws = s.draws := rfl
@[simp] theorem State.withFault_schedule : (s.withFault k a).schedule = s.schedule := rfl

end

/-- A register write is read back by its own register and by no other. -/
theorem State.reg_setReg (s : State) (x r : RegIx) (b : Byte) :
    (s.setReg x b).reg r = if r = x then b else s.reg r := by
  unfold State.reg State.setReg
  simp only [Vector.getElem_set]
  by_cases h : r = x
  · subst h; simp
  · have : ¬ x.toNat = r.toNat := fun e => h (BitVec.eq_of_toNat_eq e.symm)
    simp [h, this]

@[simp] theorem State.reg_setReg_self (s : State) (x : RegIx) (b : Byte) : (s.setReg x b).reg x = b := by
  simp [State.reg_setReg]

theorem State.reg_setReg_of_ne (s : State) {x r : RegIx} (b : Byte) (h : r ≠ x) : (s.setReg x b).reg r = s.reg r := by
  simp [State.reg_setReg, h]

/-- After a flag write VF is the flag and every other register is as before. -/
theorem State.reg_setFlag (s : State) (f : Bool) (r : RegIx) :
    (s.setFlag f).reg r = if r = flagIx then flagByte f else s.reg r := State.reg_setReg s flagIx r _

/-- A result with its flag: VF is the flag even when it is the destination (10_state.md R22). -/
theorem State.reg_setResult (s : State) (x r : RegIx) (b : Byte) (f : Bool) :
    (s.setResult x b f).reg r = if r = flagIx then flagByte f else if r = x then b else s.reg r := by
  unfold State.setResult
  rw [State.reg_setFlag, State.reg_setReg]

/-- Registers read alike when the register files are equal. -/
theorem State.reg_congr {s t : State} (h : t.v = s.v) (r : RegIx) : t.reg r = s.reg r := by
  unfold State.reg
  simp [h]

@[simp] theorem State.reg_setI (s : State) (a : Word) (r : RegIx) : (s.setI a).reg r = s.reg r := rfl

@[simp] theorem State.reg_setPc (s : State) (a : Word) (r : RegIx) : (s.setPc a).reg r = s.reg r := rfl

/-- Bytes read alike when the memories are equal. -/
theorem State.byteAt_congr {s t : State} (h : t.mem = s.mem) (a : Nat) : t.byteAt a = s.byteAt a := by
  unfold State.byteAt
  rw [h]

@[simp] theorem State.byteAt_setReg (s : State) (x : RegIx) (b : Byte) (a : Nat) : (s.setReg x b).byteAt a = s.byteAt a := rfl

@[simp] theorem State.byteAt_setFlag (s : State) (f : Bool) (a : Nat) : (s.setFlag f).byteAt a = s.byteAt a := rfl

@[simp] theorem State.byteAt_setResult (s : State) (x : RegIx) (b : Byte) (f : Bool) (a : Nat) :
    (s.setResult x b f).byteAt a = s.byteAt a := rfl

@[simp] theorem State.byteAt_setI (s : State) (i : Word) (a : Nat) : (s.setI i).byteAt a = s.byteAt a := rfl

@[simp] theorem State.byteAt_setPc (s : State) (p : Word) (a : Nat) : (s.setPc p).byteAt a = s.byteAt a := rfl

/-- A flag byte is 1 exactly when its flag is set (10_state.md R22). -/
theorem flagByte_toNat (f : Bool) : (flagByte f).toNat = if f = true then 1 else 0 := by
  cases f <;> rfl

end Sys2Proof.Machine
end

