-- ==== Sys2Proof/Laws/Ops.lean ====
section
/-! SUPPORT. One lemma per shared operation: everything it can do when it answers. -/

namespace Sys2Proof.Machine

@[simp] theorem kind_faultOf (k : FaultKind) (s : State) : (faultOf k s).kind = k := by cases k <;> rfl

@[simp] theorem final_faultOf (k : FaultKind) (s : State) : (faultOf k s).final = s := by cases k <;> rfl

/-- A guarded access answers what its action answers, or raises `MemOutOfRange` (20_memory.md R55). -/
theorem withRange_cases (n : Nat) (s : State) (act : State → Result) :
    ((n = 0 ∨ s.i.toNat + n - 1 ≤ 0xFFF) ∧ withRange n s act = act s) ∨
    ((0 < n ∧ s.i.toNat + n - 1 > 0xFFF) ∧
      withRange n s act = .fault (.memOutOfRange (s.withFault .memOutOfRange s.instrAddr))) := by
  unfold withRange
  by_cases h : 0 < n ∧ s.i.toNat + n - 1 > 0xFFF
  · rw [if_pos h]; exact .inr ⟨h, rfl⟩
  · rw [if_neg h]; exact .inl ⟨by omega, rfl⟩

theorem withRange_of_inside {n : Nat} {s : State} (h : n = 0 ∨ s.i.toNat + n - 1 ≤ 0xFFF) (act : State → Result) :
    withRange n s act = act s := by
  unfold withRange
  rw [if_neg (by omega)]

theorem withRange_of_outside {n : Nat} {s : State} (h : 0 < n ∧ s.i.toNat + n - 1 > 0xFFF) (act : State → Result) :
    withRange n s act = .fault (.memOutOfRange (s.withFault .memOutOfRange s.instrAddr)) := by
  unfold withRange
  rw [if_pos h]
  rfl

/-- A key instruction answers what its action answers, or raises `KeyOutOfRange` (45_timers_input.md R219). -/
theorem withKey_cases (x : RegIx) (s : State) (act : Nat → State → Result) :
    ((s.reg x).toNat ≤ 15 ∧ withKey x s act = act (s.reg x).toNat s) ∨
    ((s.reg x).toNat > 15 ∧ withKey x s act = .fault (.keyOutOfRange (s.withFault .keyOutOfRange s.instrAddr))) := by
  unfold withKey
  by_cases h : (s.reg x).toNat > 15
  · rw [if_pos h]; exact .inr ⟨h, rfl⟩
  · rw [if_neg h]; exact .inl ⟨by omega, rfl⟩

/-- A push writes the entry below SP and goes on, or reports the overflow (41_control_flow.md R121). -/
theorem push_cases (a : Word) (s : State) (rest : State → Result) :
    (s.sp ≠ 0 ∧ push a s rest = rest { s with stk := s.stk.setIfInBounds (s.sp.toNat - 1) a, sp := s.sp - 1 }) ∨
    (s.sp = 0 ∧ push a s rest = .next { s with errlog := s.errlog ++ [⟨.stackOverflow, s.instrAddr⟩] }) := by
  unfold push
  by_cases h : s.sp = 0
  · rw [if_pos h]; exact .inr ⟨h, rfl⟩
  · rw [if_neg h]; exact .inl ⟨h, rfl⟩

/-- A pop reads the entry at SP and goes on, or reports the underflow (41_control_flow.md R122). -/
theorem pop_cases (s : State) (rest : Word → State → Result) :
    (∃ h : s.sp.toNat < 16, pop s rest = rest (s.stk[s.sp.toNat]'h) { s with sp := s.sp + 1 }) ∨
    (s.sp.toNat ≥ 16 ∧ pop s rest = .next { s with errlog := s.errlog ++ [⟨.stackUnderflow, s.instrAddr⟩] }) := by
  unfold pop
  by_cases h : s.sp.toNat < 16
  · rw [dif_pos h]; exact .inl ⟨h, rfl⟩
  · rw [dif_neg h]; exact .inr ⟨by omega, rfl⟩

/-- A skip answers a next state that differs in PC at most (41_control_flow.md R120). -/
theorem skipIf_eq (c : Bool) (s : State) : skipIf c s = .next (s.setPc (if c = true then s.pc + 2 else s.pc)) := by
  cases c <;> rfl

/-- A draw takes the head of the `rand` input, or a free byte (10_state.md R38; log 4). -/
theorem randByte_cases (s : State) :
    (∃ r rest, s.randIn = r :: rest ∧ randByte s = (r, { s with randIn := rest })) ∨
    (s.randIn = [] ∧ randByte s = (Config.freeByte s.draws, { s with draws := s.draws + 1 })) := by
  unfold randByte
  split
  · next r rest h => exact .inl ⟨r, rest, h, rfl⟩
  · next h => exact .inr ⟨h, rfl⟩

/-- A draw changes nothing but the two fields behind the `rand` input. -/
theorem randByte_state (s : State) :
    (randByte s).2 = { s with randIn := (randByte s).2.randIn, draws := (randByte s).2.draws } := by
  rcases randByte_cases s with ⟨r, rest, -, h⟩ | ⟨-, h⟩ <;> rw [h]

/-- What a register of a block load holds: the byte at its offset, or its old value (43_index_memory.md R177). -/
theorem loadBlock_getElem (m : Memory) (a n : Nat) (v : Vector Byte 16) (k : Nat) (hk : k < 16) :
    (loadBlock m a n v)[k]'hk = if k < n then m.read (a + k) else v[k]'hk := by
  induction n with
  | zero => simp [loadBlock]
  | succ n ih =>
    unfold loadBlock
    rw [Vector.getElem_setIfInBounds]
    by_cases h : n = k
    · subst h; simp
    · rw [if_neg h, ih]
      by_cases h2 : k < n
      · rw [if_pos h2, if_pos (by omega)]
      · rw [if_neg h2, if_neg (by omega)]

/-- The registers of a block store, in order (43_index_memory.md R176). -/
theorem State.length_firstRegs (s : State) (x : RegIx) : (s.firstRegs x).length = x.toNat + 1 := by
  have := x.isLt
  simp [State.firstRegs]
  omega

theorem State.getElem_firstRegs (s : State) (x k : RegIx) (h : k.toNat < (s.firstRegs x).length) :
    (s.firstRegs x)[k.toNat]'h = s.reg k := by
  simp [State.firstRegs, State.reg]

/-- The lowest released key, if there is one (45_timers_input.md R221). -/
theorem State.lowestReleased_eq_some {s : State} {k : Nat} (hk : k < 16) (h : s.keyReleased k = true)
    (hlow : ∀ j : Nat, j < k → s.keyReleased j = false) : s.lowestReleased = some k := by
  unfold State.lowestReleased
  rw [List.find?_range_eq_some]
  refine ⟨h, by simpa using hk, fun j hj => by simp [hlow j hj]⟩

theorem State.lowestReleased_eq_none {s : State} (h : ∀ k : Nat, k < 16 → s.keyReleased k = false) :
    s.lowestReleased = none := by
  unfold State.lowestReleased
  simpa using h

/-- A fetch runs the dispatch on the word at PC, or raises `FetchOutOfRange` (40_cycle.md R100, R101). -/
theorem fetch_cases (s : State) (dispatch : Word → State → Result) :
    (s.pc.toNat ≤ 0xFFE ∧ fetch s dispatch = dispatch s.fetchWord (s.setPc (s.pc + 2))) ∨
    (s.pc.toNat > 0xFFE ∧ fetch s dispatch = .fault (.fetchOutOfRange (s.withFault .fetchOutOfRange s.pc))) := by
  unfold fetch
  by_cases h : s.pc.toNat > 0xFFE
  · rw [if_pos h]; exact .inr ⟨h, rfl⟩
  · rw [if_neg h]; exact .inl ⟨by omega, rfl⟩

/-- The address of the executing instruction is the PC its fetch began at (10_state.md R23). -/
@[simp] theorem State.instrAddr_setPc_add (s : State) : (s.setPc (s.pc + 2)).instrAddr = s.pc := by
  simp [State.instrAddr]

/-- A transaction of the environment acts only on a machine without a fault (10_state.md R35). -/
theorem unlessFaulted_of_none {s : State} (h : s.fault = none) (act : State → State) : unlessFaulted s act = act s := by
  simp [unlessFaulted, h]

theorem unlessFaulted_of_some {s : State} {r : FaultRecord} (h : s.fault = some r) (act : State → State) :
    unlessFaulted s act = s := by
  simp [unlessFaulted, h]

end Sys2Proof.Machine
end

