-- ==== Sys2Proof/Laws/Frame.lean ====
section
/-! SUPPORT. The framebuffer: what a pixel is after a flip, a sprite row and a whole sprite (44_display.md R191 to R194). -/

namespace Sys2Proof.Machine

@[simp] theorem pixelAt_clearFrame (x y : Nat) : pixelAt clearFrame x y = false := by
  unfold pixelAt clearFrame
  split <;> simp

/-- A flip changes its own pixel and no other. -/
theorem pixelAt_flipPixel (fb : Frame) {x y : Nat} (hx : x < 64) (hy : y < 32) (cx cy : Nat) :
    pixelAt (flipPixel fb x y) cx cy = if cx = x ∧ cy = y then !pixelAt fb cx cy else pixelAt fb cx cy := by
  unfold flipPixel
  rw [dif_pos ⟨hx, hy⟩]
  unfold pixelAt
  by_cases hc : cx < 64 ∧ cy < 32
  · simp only [dif_pos hc, Vector.getElem_set]
    by_cases h1 : x = cx
    · subst h1
      by_cases h2 : y = cy
      · subst h2; simp
      · have h3 : ¬ cy = y := fun e => h2 e.symm
        simp [h2, h3]
    · have h3 : ¬ cx = x := fun e => h1 e.symm
      simp [h1, h3]
  · simp only [dif_neg hc]
    have : ¬ (cx = x ∧ cy = y) := by omega
    simp [this]

/-- The first `m` bits of a sprite byte drawn at column `x0` of row `y` cover the pixel `(cx, cy)` inside the grid. -/
def rowCovers (b : Byte) (x0 y m cx cy : Nat) : Bool :=
  decide (cy = y ∧ x0 ≤ cx ∧ cx < x0 + m ∧ cx < 64) && b.getLsbD (7 - (cx - x0))

/-- What drawing the first `m` bits of a sprite byte does: every covered pixel flips, and the flag is raised when one of them
was on (44_display.md R191). -/
theorem foldl_drawPixel (b : Byte) (x0 : Nat) {y : Nat} (hy : y < 32) (acc : Frame × Bool) (m : Nat) :
    (∀ cx cy, pixelAt ((List.range m).foldl (drawPixel b x0 y) acc).1 cx cy =
      (pixelAt acc.1 cx cy ^^ rowCovers b x0 y m cx cy)) ∧
    (((List.range m).foldl (drawPixel b x0 y) acc).2 = true ↔
      acc.2 = true ∨ ∃ cx cy, rowCovers b x0 y m cx cy = true ∧ pixelAt acc.1 cx cy = true) := by
  induction m with
  | zero =>
    have h : ∀ cx cy, rowCovers b x0 y 0 cx cy = false := by
      intro cx cy; simp [rowCovers]; omega
    simp [h]
  | succ m ih =>
    obtain ⟨ihp, ihc⟩ := ih
    simp only [List.range_succ, List.foldl_append, List.foldl_cons, List.foldl_nil]
    generalize (List.range m).foldl (drawPixel b x0 y) acc = r at ihp ihc ⊢
    have hstep : ∀ cx cy, rowCovers b x0 y (m + 1) cx cy =
        (rowCovers b x0 y m cx cy || (decide (cx = x0 + m ∧ cy = y ∧ x0 + m < 64) && b.getLsbD (7 - m))) := by
      intro cx cy
      by_cases h : cx = x0 + m
      · subst h
        simp [rowCovers]
      · have : (cy = y ∧ x0 ≤ cx ∧ cx < x0 + (m + 1) ∧ cx < 64) ↔ (cy = y ∧ x0 ≤ cx ∧ cx < x0 + m ∧ cx < 64) := by omega
        simp [rowCovers, h, this]
    have hnew : rowCovers b x0 y m (x0 + m) y = false := by simp [rowCovers]
    unfold drawPixel
    by_cases h64 : x0 + m ≥ 64
    · rw [if_pos h64]
      have h0 : ¬ x0 + m < 64 := by omega
      simp only [hstep, h0, and_false, decide_false, Bool.false_and, Bool.or_false]
      exact ⟨ihp, ihc⟩
    · rw [if_neg h64]
      have h0 : x0 + m < 64 := by omega
      by_cases hb : b.getLsbD (7 - m) = true
      · rw [if_pos hb]
        constructor
        · intro cx cy
          rw [pixelAt_flipPixel _ h0 hy, hstep, hb]
          by_cases h : cx = x0 + m ∧ cy = y
          · obtain ⟨rfl, rfl⟩ := h
            simp [ihp, hnew, h0]
          · have h' : ¬ (cx = x0 + m ∧ cy = y ∧ x0 + m < 64) := fun e => h ⟨e.1, e.2.1⟩
            simp [h, h', ihp]
        · simp only [Bool.or_eq_true, ihc, ihp, hnew, hstep, hb, h0]
          constructor
          · rintro ((h | ⟨cx, cy, h1, h2⟩) | h)
            · exact .inl h
            · exact .inr ⟨cx, cy, .inl h1, h2⟩
            · exact .inr ⟨x0 + m, y, .inr (by simp), by simpa using h⟩
          · rintro (h | ⟨cx, cy, h1 | h1, h2⟩)
            · exact .inl (.inl h)
            · exact .inl (.inr ⟨cx, cy, h1, h2⟩)
            · simp at h1; obtain ⟨rfl, rfl⟩ := h1; exact .inr (by simpa using h2)
      · rw [if_neg hb]
        have hb' : b.getLsbD (7 - m) = false := by simpa using hb
        simp only [hstep, hb', Bool.and_false, Bool.or_false]
        exact ⟨ihp, ihc⟩

/-- The first `n` sprite rows at `a`, drawn at column `x0` and row `y0`, cover the pixel `(cx, cy)` inside the grid. -/
def spriteBit (m : Memory) (a x0 y0 n cx cy : Nat) : Bool :=
  decide (x0 ≤ cx ∧ cx < x0 + 8 ∧ cx < 64 ∧ y0 ≤ cy ∧ cy < y0 + n ∧ cy < 32) &&
    (m.read (a + (cy - y0))).getLsbD (7 - (cx - x0))

/-- What drawing a sprite does: every pixel its set bits cover inside the grid flips, and the flag says whether one of them was
on (44_display.md R191, R192, R194). -/
theorem drawSprite_spec (m : Memory) (a x0 y0 n : Nat) (fb : Frame) :
    (∀ cx cy, pixelAt (drawSprite m a x0 y0 n fb).1 cx cy = (pixelAt fb cx cy ^^ spriteBit m a x0 y0 n cx cy)) ∧
    ((drawSprite m a x0 y0 n fb).2 = true ↔
      ∃ cx cy, spriteBit m a x0 y0 n cx cy = true ∧ pixelAt fb cx cy = true) := by
  induction n with
  | zero =>
    have h : ∀ cx cy, spriteBit m a x0 y0 0 cx cy = false := by
      intro cx cy; simp [spriteBit]; omega
    simp [h, drawSprite]
  | succ n ih =>
    obtain ⟨ihp, ihc⟩ := ih
    unfold drawSprite at ihp ihc ⊢
    simp only [List.range_succ, List.foldl_append, List.foldl_cons, List.foldl_nil]
    generalize (List.range n).foldl _ (fb, false) = r at ihp ihc ⊢
    have hstep : ∀ cx cy, spriteBit m a x0 y0 (n + 1) cx cy =
        (spriteBit m a x0 y0 n cx cy ||
          (decide (y0 + n < 32) && rowCovers (m.read (a + n)) x0 (y0 + n) 8 cx cy)) := by
      intro cx cy
      by_cases h : cy = y0 + n
      · subst h
        simp [spriteBit, rowCovers]
        by_cases h1 : y0 + n < 32 <;> simp [h1]
      · have : (x0 ≤ cx ∧ cx < x0 + 8 ∧ cx < 64 ∧ y0 ≤ cy ∧ cy < y0 + (n + 1) ∧ cy < 32) ↔
          (x0 ≤ cx ∧ cx < x0 + 8 ∧ cx < 64 ∧ y0 ≤ cy ∧ cy < y0 + n ∧ cy < 32) := by omega
        simp [spriteBit, rowCovers, h, this]
    by_cases h32 : y0 + n ≥ 32
    · rw [if_pos h32]
      have h0 : ¬ y0 + n < 32 := by omega
      simp only [hstep, h0, decide_false, Bool.false_and, Bool.or_false]
      exact ⟨ihp, ihc⟩
    · rw [if_neg h32]
      have h0 : y0 + n < 32 := by omega
      obtain ⟨rp, rc⟩ := foldl_drawPixel (m.read (a + n)) x0 h0 r 8
      have hdisj : ∀ cx cy, rowCovers (m.read (a + n)) x0 (y0 + n) 8 cx cy = true →
          spriteBit m a x0 y0 n cx cy = false := by
        intro cx cy h
        simp [rowCovers] at h
        simp [spriteBit]
        omega
      unfold drawRow
      constructor
      · intro cx cy
        rw [rp, ihp, hstep]
        cases hr : rowCovers (m.read (a + n)) x0 (y0 + n) 8 cx cy
        · simp
        · simp [hdisj _ _ hr, h0]
      · rw [rc, ihc]
        constructor
        · rintro (⟨cx, cy, h1, h2⟩ | ⟨cx, cy, h1, h2⟩)
          · exact ⟨cx, cy, by simp [hstep, h1], h2⟩
          · refine ⟨cx, cy, by simp [hstep, h1, h0], ?_⟩
            simpa [ihp, hdisj _ _ h1] using h2
        · rintro ⟨cx, cy, h1, h2⟩
          rw [hstep, Bool.or_eq_true] at h1
          rcases h1 with h1 | h1
          · exact .inl ⟨cx, cy, h1, h2⟩
          · simp only [Bool.and_eq_true] at h1
            exact .inr ⟨cx, cy, h1.2, by simp [ihp, hdisj _ _ h1.2, h2]⟩

end Sys2Proof.Machine
end

