-- ==== Sys2Proof/Laws/Block.lean ====
section
/-! SUPPORT. The four instructions that access memory: what each answers inside the address space and outside it (20_memory.md
R55), and what a block store leaves in memory. -/

namespace Sys2Proof.Machine

/-- FX33 inside memory (43_index_memory.md R174). -/
theorem execLdB_inside {x : RegIx} {s : State} (h : s.i.toNat + 2 ≤ 0xFFF) :
    execLdB x s = .next { s with mem := s.mem.writeBytes (s.dataAddr 0) (bcdDigits (s.reg x)) } :=
  withRange_of_inside (by omega) _

/-- FX33 outside memory. -/
theorem execLdB_outside {x : RegIx} {s : State} (h : s.i.toNat + 2 > 0xFFF) :
    execLdB x s = .fault (.memOutOfRange (s.withFault .memOutOfRange s.instrAddr)) :=
  withRange_of_outside (by omega) _

/-- FX55 inside memory (43_index_memory.md R176). -/
theorem execStoreRegs_inside {x : RegIx} {s : State} (h : s.i.toNat + x.toNat ≤ 0xFFF) :
    execStoreRegs x s =
      .next { s with mem := s.mem.writeBytes (s.dataAddr 0) (s.firstRegs x), i := s.indexAfterBlock x } :=
  withRange_of_inside (by omega) _

/-- FX55 outside memory. -/
theorem execStoreRegs_outside {x : RegIx} {s : State} (h : s.i.toNat + x.toNat > 0xFFF) :
    execStoreRegs x s = .fault (.memOutOfRange (s.withFault .memOutOfRange s.instrAddr)) :=
  withRange_of_outside (by omega) _

/-- FX65 inside memory (43_index_memory.md R177). -/
theorem execLoadRegs_inside {x : RegIx} {s : State} (h : s.i.toNat + x.toNat ≤ 0xFFF) :
    execLoadRegs x s =
      .next { s with v := loadBlock s.mem (s.dataAddr 0) (x.toNat + 1) s.v, i := s.indexAfterBlock x } :=
  withRange_of_inside (by omega) _

/-- FX65 outside memory. -/
theorem execLoadRegs_outside {x : RegIx} {s : State} (h : s.i.toNat + x.toNat > 0xFFF) :
    execLoadRegs x s = .fault (.memOutOfRange (s.withFault .memOutOfRange s.instrAddr)) :=
  withRange_of_outside (by omega) _

/-- What DXYN draws, from a state inside memory. -/
def State.drawn (s : State) (x y : RegIx) (n : Nibble) : Frame × Bool :=
  drawSprite s.mem (s.dataAddr 0) (s.spriteCol x) (s.spriteRow y) n.toNat s.fb

/-- DXYN inside memory, or of no rows (44_display.md R191, R193). -/
theorem execDrw_inside {x y : RegIx} {n : Nibble} {s : State} (h : n.toNat = 0 ∨ s.i.toNat + n.toNat - 1 ≤ 0xFFF) :
    execDrw x y n s = .next ({ s with fb := (s.drawn x y n).1 }.setFlag (s.drawn x y n).2) :=
  withRange_of_inside h _

/-- DXYN outside memory (44_display.md R195). -/
theorem execDrw_outside {x y : RegIx} {n : Nibble} {s : State} (h : 0 < n.toNat ∧ s.i.toNat + n.toNat - 1 > 0xFFF) :
    execDrw x y n s = .fault (.memOutOfRange (s.withFault .memOutOfRange s.instrAddr)) :=
  withRange_of_outside h _

/-- The index after a completed block transfer (43_index_memory.md R175). -/
theorem State.toNat_indexAfterBlock {s : State} {x : RegIx} (h : s.i.toNat + x.toNat ≤ 0xFFF) :
    (s.indexAfterBlock x).toNat = if s.legacy = true then s.i.toNat + x.toNat + 1 else s.i.toNat := by
  unfold State.indexAfterBlock
  split
  · rw [BitVec.toNat_ofNat]; omega
  · rfl

/-- Memory after a block store: register k at `I + k`, every other byte as before (43_index_memory.md R176). -/
theorem read_storeBlock {s : State} {x : RegIx} (h : s.i.toNat + x.toNat ≤ 0xFFF) (b : Nat) :
    (s.mem.writeBytes (s.dataAddr 0) (s.firstRegs x)).read b =
      if s.i.toNat ≤ b ∧ b ≤ s.i.toNat + x.toNat then s.reg (BitVec.ofNat 4 (b - s.i.toNat)) else s.byteAt b := by
  have hx := x.isLt
  rw [Memory.read_writeBytes _ _ _ _ (by rw [State.length_firstRegs]; simp only [State.dataAddr]; omega)]
  by_cases hb : s.i.toNat ≤ b ∧ b ≤ s.i.toNat + x.toNat
  · have h2 : s.dataAddr 0 ≤ b ∧ b < s.dataAddr 0 + (s.firstRegs x).length := by
      rw [State.length_firstRegs]; simp only [State.dataAddr]; omega
    rw [if_pos hb, dif_pos h2]
    have e : (BitVec.ofNat 4 (b - s.i.toNat)).toNat = b - s.dataAddr 0 := by
      simp only [State.dataAddr, BitVec.toNat_ofNat]; omega
    simp only [← e]
    exact State.getElem_firstRegs _ _ _ _
  · have h2 : ¬ (s.dataAddr 0 ≤ b ∧ b < s.dataAddr 0 + (s.firstRegs x).length) := by
      rw [State.length_firstRegs]; simp only [State.dataAddr]; omega
    rw [if_neg hb, dif_neg h2]; rfl

end Sys2Proof.Machine
end

