-- ==== Sys2Proof/Laws/Decode.lean ====
section
/-! SUPPORT. The fields of an instruction word as numbers (30_encoding.md R72), the words of the formats as numbers, and the
fields of each format. -/

namespace Sys2Proof

theorem toNat_fieldClass (w : Word) : (fieldClass w).toNat = w.toNat / 0x1000 := by
  have := w.isLt
  simp [fieldClass, BitVec.extractLsb'_toNat, Nat.shiftRight_eq_div_pow]
  omega

theorem toNat_fieldX (w : Word) : (fieldX w).toNat = w.toNat / 0x100 % 0x10 := by
  simp [fieldX, BitVec.extractLsb'_toNat, Nat.shiftRight_eq_div_pow]

theorem toNat_fieldY (w : Word) : (fieldY w).toNat = w.toNat / 0x10 % 0x10 := by
  simp [fieldY, BitVec.extractLsb'_toNat, Nat.shiftRight_eq_div_pow]

theorem toNat_fieldN (w : Word) : (fieldN w).toNat = w.toNat % 0x10 := by
  simp [fieldN, BitVec.extractLsb'_toNat]

theorem toNat_fieldNN (w : Word) : (fieldNN w).toNat = w.toNat % 0x100 := by
  simp [fieldNN, BitVec.extractLsb'_toNat]

theorem toNat_fieldNNN (w : Word) : (fieldNNN w).toNat = w.toNat % 0x1000 := by
  simp [fieldNNN, BitVec.extractLsb'_toNat]

theorem toNat_highByte (w : Word) : (highByte w).toNat = w.toNat / 0x100 := by
  have := w.isLt
  simp [highByte, BitVec.extractLsb'_toNat, Nat.shiftRight_eq_div_pow]
  omega

theorem toNat_lowByte (w : Word) : (lowByte w).toNat = w.toNat % 0x100 := by
  simp [lowByte, BitVec.extractLsb'_toNat]

theorem toNat_wordOfBytes (hi lo : Byte) : (wordOfBytes hi lo).toNat = 0x100 * hi.toNat + lo.toNat := by
  have h : (wordOfBytes hi lo).toNat = hi.toNat <<< 8 ||| lo.toNat := BitVec.toNat_append hi lo
  rw [h, ← Nat.shiftLeft_add_eq_or_of_lt lo.isLt, Nat.shiftLeft_eq]
  omega

theorem toNat_formatA (c : BitVec 4) (nnn : Addr12) : (formatA c nnn).toNat = 0x1000 * c.toNat + nnn.toNat := by
  have h : (formatA c nnn).toNat = c.toNat <<< 12 ||| nnn.toNat := BitVec.toNat_append c nnn
  rw [h, ← Nat.shiftLeft_add_eq_or_of_lt nnn.isLt, Nat.shiftLeft_eq]
  omega

theorem toNat_formatRI (c : BitVec 4) (x : RegIx) (nn : Byte) :
    (formatRI c x nn).toNat = 0x1000 * c.toNat + 0x100 * x.toNat + nn.toNat := by
  have h : (formatRI c x nn).toNat = 0x1000 * c.toNat + (x ++ nn).toNat := toNat_formatA c (x ++ nn)
  have h2 : (x ++ nn).toNat = x.toNat <<< 8 ||| nn.toNat := BitVec.toNat_append x nn
  rw [h, h2, ← Nat.shiftLeft_add_eq_or_of_lt nn.isLt, Nat.shiftLeft_eq]
  omega

theorem toNat_formatRR (c : BitVec 4) (x y : RegIx) (n : BitVec 4) :
    (formatRR c x y n).toNat = 0x1000 * c.toNat + 0x100 * x.toNat + 0x10 * y.toNat + n.toNat := by
  have h : (formatRR c x y n).toNat = 0x1000 * c.toNat + 0x100 * x.toNat + (y ++ n).toNat := toNat_formatRI c x (y ++ n)
  have h2 : (y ++ n).toNat = y.toNat <<< 4 ||| n.toNat := BitVec.toNat_append y n
  rw [h, h2, ← Nat.shiftLeft_add_eq_or_of_lt n.isLt, Nat.shiftLeft_eq]
  omega

/-- The two bytes of a word make the word (20_memory.md R56). -/
@[simp] theorem wordOfBytes_highByte_lowByte (w : Word) : wordOfBytes (highByte w) (lowByte w) = w := by
  apply BitVec.eq_of_toNat_eq
  rw [toNat_wordOfBytes, toNat_highByte, toNat_lowByte]
  omega

/-! ### The fields of each format -/
section
variable (c : BitVec 4) (x y : RegIx) (n : BitVec 4) (nn : Byte) (nnn : Addr12)

@[simp] theorem fieldClass_formatA : fieldClass (formatA c nnn) = c := by
  apply BitVec.eq_of_toNat_eq; rw [toNat_fieldClass, toNat_formatA]; omega
@[simp] theorem fieldNNN_formatA : fieldNNN (formatA c nnn) = nnn := by
  apply BitVec.eq_of_toNat_eq; rw [toNat_fieldNNN, toNat_formatA]; omega
@[simp] theorem fieldClass_formatRI : fieldClass (formatRI c x nn) = c := by
  apply BitVec.eq_of_toNat_eq; rw [toNat_fieldClass, toNat_formatRI]; omega
@[simp] theorem fieldX_formatRI : fieldX (formatRI c x nn) = x := by
  apply BitVec.eq_of_toNat_eq; rw [toNat_fieldX, toNat_formatRI]; omega
@[simp] theorem fieldNN_formatRI : fieldNN (formatRI c x nn) = nn := by
  apply BitVec.eq_of_toNat_eq; rw [toNat_fieldNN, toNat_formatRI]; omega
@[simp] theorem fieldClass_formatRR : fieldClass (formatRR c x y n) = c := by
  apply BitVec.eq_of_toNat_eq; rw [toNat_fieldClass, toNat_formatRR]; omega
@[simp] theorem fieldX_formatRR : fieldX (formatRR c x y n) = x := by
  apply BitVec.eq_of_toNat_eq; rw [toNat_fieldX, toNat_formatRR]; omega
@[simp] theorem fieldY_formatRR : fieldY (formatRR c x y n) = y := by
  apply BitVec.eq_of_toNat_eq; rw [toNat_fieldY, toNat_formatRR]; omega
@[simp] theorem fieldN_formatRR : fieldN (formatRR c x y n) = n := by
  apply BitVec.eq_of_toNat_eq; rw [toNat_fieldN, toNat_formatRR]; omega
end

/-! ### The fixed bits of each format -/

/-- The class mask keeps the class of an address word (30_encoding.md R74). -/
theorem formatA_and_classMask (c : BitVec 4) (nnn : Addr12) : formatA c nnn &&& 0xF000 = formatA c 0 := by
  have h : formatA c nnn &&& (0xF#4 ++ 0x000#12) = (c &&& 0xF#4) ++ (nnn &&& 0x000#12) := BitVec.and_append
  have hc : c &&& 0xF#4 = c := BitVec.and_allOnes
  rw [hc, BitVec.and_zero] at h
  exact h

/-- The class mask keeps the class of a register and immediate word (R74). -/
theorem formatRI_and_classMask (c : BitVec 4) (x : RegIx) (nn : Byte) : formatRI c x nn &&& 0xF000 = formatRI c 0 0 := by
  have h : formatRI c x nn &&& 0xF000 = formatA c 0 := formatA_and_classMask c (x ++ nn)
  exact h

/-- The class mask keeps the class of a draw word (R74). -/
theorem formatRR_and_classMask (c : BitVec 4) (x y : RegIx) (n : BitVec 4) :
    formatRR c x y n &&& 0xF000 = formatRR c 0 0 0 := by
  have h : formatRR c x y n &&& 0xF000 = formatA c 0 := formatA_and_classMask c (x ++ (y ++ n))
  exact h

/-- The class and low-byte mask keeps class and sub-opcode byte (R74). -/
theorem formatRI_and_byteMask (c : BitVec 4) (x : RegIx) (nn : Byte) : formatRI c x nn &&& 0xF0FF = formatRI c 0 nn := by
  have h : formatRI c x nn &&& (0xF#4 ++ (0x0#4 ++ 0xFF#8)) = (c &&& 0xF#4) ++ ((x ++ nn) &&& (0x0#4 ++ 0xFF#8)) :=
    BitVec.and_append
  have h2 : (x ++ nn) &&& (0x0#4 ++ 0xFF#8) = (x &&& 0x0#4) ++ (nn &&& 0xFF#8) := BitVec.and_append
  have hc : c &&& 0xF#4 = c := BitVec.and_allOnes
  have hn : nn &&& 0xFF#8 = nn := BitVec.and_allOnes
  rw [h2, hc, hn, BitVec.and_zero] at h
  exact h

/-- The class and low-nibble mask keeps class and sub-opcode nibble (R74). -/
theorem formatRR_and_nibbleMask (c : BitVec 4) (x y : RegIx) (n : BitVec 4) :
    formatRR c x y n &&& 0xF00F = formatRR c 0 0 n := by
  have h : formatRR c x y n &&& (0xF#4 ++ (0x0#4 ++ (0x0#4 ++ 0xF#4))) =
      (c &&& 0xF#4) ++ ((x ++ (y ++ n)) &&& (0x0#4 ++ (0x0#4 ++ 0xF#4))) := BitVec.and_append
  have h2 : (x ++ (y ++ n)) &&& (0x0#4 ++ (0x0#4 ++ 0xF#4)) = (x &&& 0x0#4) ++ ((y ++ n) &&& (0x0#4 ++ 0xF#4)) :=
    BitVec.and_append
  have h3 : (y ++ n) &&& (0x0#4 ++ 0xF#4) = (y &&& 0x0#4) ++ (n &&& 0xF#4) := BitVec.and_append
  have hc : c &&& 0xF#4 = c := BitVec.and_allOnes
  have hn : n &&& 0xF#4 = n := BitVec.and_allOnes
  rw [h2, h3, hc, hn, BitVec.and_zero, BitVec.and_zero] at h
  exact h

end Sys2Proof
end

