-- ==== Sys2Proof/Laws/Environment.lean ====
section
/-! SUPPORT. The environment's transactions: the tick, the input update and the load (45_timers_input.md R214, R216;
70_reset_and_hazards.md R262, R263). -/

namespace Sys2Proof.Machine

/-- A timer counts down by one and stops at zero (R214). -/
theorem toNat_countDown (b : Byte) : (countDown b).toNat = b.toNat - 1 := by
  have := b.isLt
  unfold countDown
  split
  · next h => subst h; rfl
  · next h =>
    have : b.toNat ≠ 0 := fun e => h (BitVec.eq_of_toNat_eq e)
    simp [BitVec.toNat_sub]
    omega

/-- A tick of a machine without a fault (R214). -/
theorem tick_of_none {s : State} (h : s.fault = none) : tick s = { s with dt := countDown s.dt, st := countDown s.st } :=
  unlessFaulted_of_none h _

/-- An input update of a machine without a fault (R216). -/
theorem inputUpdate_of_none {s : State} (h : s.fault = none) (k r : BitVec 16) :
    inputUpdate k r s = { s with held := k, rel := r } :=
  unlessFaulted_of_none h _

/-- A load of a ROM that fits (R262). -/
theorem load_of_fits (legacy : Bool) (memInit : Nat → Byte) (font : Vector Byte 80) {rom : List Byte}
    (h : rom.length ≤ 3584) :
    load legacy memInit font (some rom) =
      .next { State.reset with mem := Memory.ofImage (loadImage memInit font rom) 0x1000, legacy := legacy } := by
  simp only [load]
  rw [if_neg (show ¬ rom.length > Config.romMax from Nat.not_lt.mpr h)]

/-- A load of a ROM that does not fit is refused (R263). -/
theorem load_of_too_long (legacy : Bool) (memInit : Nat → Byte) (font : Vector Byte 80) {rom : List Byte}
    (h : rom.length > 3584) : load legacy memInit font (some rom) = .refused .romTooLong := by
  simp only [load]
  rw [if_pos (show rom.length > Config.romMax from h)]

/-- A loaded memory reads as its image at every address. -/
theorem read_loaded (image : Nat → Byte) {a : Nat} (ha : a ≤ 0xFFF) : (Memory.ofImage image 0x1000).read a = image a :=
  Memory.read_ofImage image (Nat.le_refl _) (Nat.lt_succ_of_le ha)

/-- A loaded memory is canonical. -/
theorem wf_loaded (image : Nat → Byte) : (Memory.ofImage image 0x1000).wf := Memory.wf_ofImage image (Nat.le_refl _)

end Sys2Proof.Machine
end

