-- ==== Sys2Proof/Laws/PerInstr.lean ====
section
/-! SUPPORT. Per-instruction laws. `RowSelected`: the word of an instruction has the fixed bits of its row of the opcode map
(30_encoding.md R74); an unmatched word has no row. -/

namespace Sys2Proof.Laws

/-- Every row with the instruction's mnemonic selects the instruction's word. -/
def RowSelected.Statement (i : Instr) : Prop := ∀ r ∈ opcodeRows, r.mnemonic = i.mnemonic → rowSelects r (encode i) = true

/-- The rows with a given mnemonic select a word when the listed row does and no other row has the mnemonic. -/
theorem rowSelected_of {i : Instr} (value mask : Word)
    (hrow : ∀ r ∈ opcodeRows, r.mnemonic = i.mnemonic → r.value = value ∧ r.mask = mask)
    (hword : encode i &&& mask = value) : RowSelected.Statement i := by
  intro r hr hm
  obtain ⟨hv, hk⟩ := hrow r hr hm
  simp [rowSelects, hv, hk, hword]

theorem RowSelected.cls : RowSelected.Statement .cls :=
  rowSelected_of 0x00E0 0xFFFF (by simp only [Instr.mnemonic]; decide) (by decide)

theorem RowSelected.ret : RowSelected.Statement .ret :=
  rowSelected_of 0x00EE 0xFFFF (by simp only [Instr.mnemonic]; decide) (by decide)

theorem RowSelected.jp (nnn : Addr12) : RowSelected.Statement (.jp nnn) :=
  rowSelected_of 0x1000 0xF000 (by simp only [Instr.mnemonic]; decide) (formatA_and_classMask _ _)

theorem RowSelected.call (nnn : Addr12) : RowSelected.Statement (.call nnn) :=
  rowSelected_of 0x2000 0xF000 (by simp only [Instr.mnemonic]; decide) (formatA_and_classMask _ _)

theorem RowSelected.seImm (x : RegIx) (nn : Byte) : RowSelected.Statement (.seImm x nn) :=
  rowSelected_of 0x3000 0xF000 (by simp only [Instr.mnemonic]; decide) (formatRI_and_classMask _ _ _)

theorem RowSelected.sneImm (x : RegIx) (nn : Byte) : RowSelected.Statement (.sneImm x nn) :=
  rowSelected_of 0x4000 0xF000 (by simp only [Instr.mnemonic]; decide) (formatRI_and_classMask _ _ _)

theorem RowSelected.seReg (x y : RegIx) : RowSelected.Statement (.seReg x y) :=
  rowSelected_of 0x5000 0xF00F (by simp only [Instr.mnemonic]; decide) (formatRR_and_nibbleMask _ _ _ _)

theorem RowSelected.ldImm (x : RegIx) (nn : Byte) : RowSelected.Statement (.ldImm x nn) :=
  rowSelected_of 0x6000 0xF000 (by simp only [Instr.mnemonic]; decide) (formatRI_and_classMask _ _ _)

theorem RowSelected.addImm (x : RegIx) (nn : Byte) : RowSelected.Statement (.addImm x nn) :=
  rowSelected_of 0x7000 0xF000 (by simp only [Instr.mnemonic]; decide) (formatRI_and_classMask _ _ _)

theorem RowSelected.ldReg (x y : RegIx) : RowSelected.Statement (.ldReg x y) :=
  rowSelected_of 0x8000 0xF00F (by simp only [Instr.mnemonic]; decide) (formatRR_and_nibbleMask _ _ _ _)

theorem RowSelected.orReg (x y : RegIx) : RowSelected.Statement (.orReg x y) :=
  rowSelected_of 0x8001 0xF00F (by simp only [Instr.mnemonic]; decide) (formatRR_and_nibbleMask _ _ _ _)

theorem RowSelected.andReg (x y : RegIx) : RowSelected.Statement (.andReg x y) :=
  rowSelected_of 0x8002 0xF00F (by simp only [Instr.mnemonic]; decide) (formatRR_and_nibbleMask _ _ _ _)

theorem RowSelected.xorReg (x y : RegIx) : RowSelected.Statement (.xorReg x y) :=
  rowSelected_of 0x8003 0xF00F (by simp only [Instr.mnemonic]; decide) (formatRR_and_nibbleMask _ _ _ _)

theorem RowSelected.addReg (x y : RegIx) : RowSelected.Statement (.addReg x y) :=
  rowSelected_of 0x8004 0xF00F (by simp only [Instr.mnemonic]; decide) (formatRR_and_nibbleMask _ _ _ _)

theorem RowSelected.subReg (x y : RegIx) : RowSelected.Statement (.subReg x y) :=
  rowSelected_of 0x8005 0xF00F (by simp only [Instr.mnemonic]; decide) (formatRR_and_nibbleMask _ _ _ _)

theorem RowSelected.shr (x y : RegIx) : RowSelected.Statement (.shr x y) :=
  rowSelected_of 0x8006 0xF00F (by simp only [Instr.mnemonic]; decide) (formatRR_and_nibbleMask _ _ _ _)

theorem RowSelected.subnReg (x y : RegIx) : RowSelected.Statement (.subnReg x y) :=
  rowSelected_of 0x8007 0xF00F (by simp only [Instr.mnemonic]; decide) (formatRR_and_nibbleMask _ _ _ _)

theorem RowSelected.shl (x y : RegIx) : RowSelected.Statement (.shl x y) :=
  rowSelected_of 0x800E 0xF00F (by simp only [Instr.mnemonic]; decide) (formatRR_and_nibbleMask _ _ _ _)

theorem RowSelected.sneReg (x y : RegIx) : RowSelected.Statement (.sneReg x y) :=
  rowSelected_of 0x9000 0xF00F (by simp only [Instr.mnemonic]; decide) (formatRR_and_nibbleMask _ _ _ _)

theorem RowSelected.ldI (nnn : Addr12) : RowSelected.Statement (.ldI nnn) :=
  rowSelected_of 0xA000 0xF000 (by simp only [Instr.mnemonic]; decide) (formatA_and_classMask _ _)

theorem RowSelected.jpV0 (nnn : Addr12) : RowSelected.Statement (.jpV0 nnn) :=
  rowSelected_of 0xB000 0xF000 (by simp only [Instr.mnemonic]; decide) (formatA_and_classMask _ _)

theorem RowSelected.rnd (x : RegIx) (nn : Byte) : RowSelected.Statement (.rnd x nn) :=
  rowSelected_of 0xC000 0xF000 (by simp only [Instr.mnemonic]; decide) (formatRI_and_classMask _ _ _)

theorem RowSelected.drw (x y : RegIx) (n : Nibble) : RowSelected.Statement (.drw x y n) :=
  rowSelected_of 0xD000 0xF000 (by simp only [Instr.mnemonic]; decide) (formatRR_and_classMask _ _ _ _)

theorem RowSelected.skp (x : RegIx) : RowSelected.Statement (.skp x) :=
  rowSelected_of 0xE09E 0xF0FF (by simp only [Instr.mnemonic]; decide) (formatRI_and_byteMask _ _ _)

theorem RowSelected.sknp (x : RegIx) : RowSelected.Statement (.sknp x) :=
  rowSelected_of 0xE0A1 0xF0FF (by simp only [Instr.mnemonic]; decide) (formatRI_and_byteMask _ _ _)

theorem RowSelected.ldVxDt (x : RegIx) : RowSelected.Statement (.ldVxDt x) :=
  rowSelected_of 0xF007 0xF0FF (by simp only [Instr.mnemonic]; decide) (formatRI_and_byteMask _ _ _)

theorem RowSelected.ldVxK (x : RegIx) : RowSelected.Statement (.ldVxK x) :=
  rowSelected_of 0xF00A 0xF0FF (by simp only [Instr.mnemonic]; decide) (formatRI_and_byteMask _ _ _)

theorem RowSelected.ldDtVx (x : RegIx) : RowSelected.Statement (.ldDtVx x) :=
  rowSelected_of 0xF015 0xF0FF (by simp only [Instr.mnemonic]; decide) (formatRI_and_byteMask _ _ _)

theorem RowSelected.ldStVx (x : RegIx) : RowSelected.Statement (.ldStVx x) :=
  rowSelected_of 0xF018 0xF0FF (by simp only [Instr.mnemonic]; decide) (formatRI_and_byteMask _ _ _)

theorem RowSelected.addI (x : RegIx) : RowSelected.Statement (.addI x) :=
  rowSelected_of 0xF01E 0xF0FF (by simp only [Instr.mnemonic]; decide) (formatRI_and_byteMask _ _ _)

theorem RowSelected.ldF (x : RegIx) : RowSelected.Statement (.ldF x) :=
  rowSelected_of 0xF029 0xF0FF (by simp only [Instr.mnemonic]; decide) (formatRI_and_byteMask _ _ _)

theorem RowSelected.ldB (x : RegIx) : RowSelected.Statement (.ldB x) :=
  rowSelected_of 0xF033 0xF0FF (by simp only [Instr.mnemonic]; decide) (formatRI_and_byteMask _ _ _)

theorem RowSelected.storeRegs (x : RegIx) : RowSelected.Statement (.storeRegs x) :=
  rowSelected_of 0xF055 0xF0FF (by simp only [Instr.mnemonic]; decide) (formatRI_and_byteMask _ _ _)

theorem RowSelected.loadRegs (x : RegIx) : RowSelected.Statement (.loadRegs x) :=
  rowSelected_of 0xF065 0xF0FF (by simp only [Instr.mnemonic]; decide) (formatRI_and_byteMask _ _ _)

theorem RowSelected.unmatched (w : Word) : RowSelected.Statement (.unmatched w) :=
  have h : ∀ r ∈ opcodeRows, r.mnemonic ≠ "unmatched_word__no-op" := by decide
  fun r hr hm => absurd hm (h r hr)

end Sys2Proof.Laws
end

