-- ==== Sys2Proof/Laws/Step.lean ====
section
/-! SUPPORT. The step: what it is in each case of the fault register and the schedule, and what an instruction step does. -/

namespace Sys2Proof.Machine

/-- With a fault recorded the step has no effect (40_cycle.md R106). -/
theorem step_of_fault {s : State} {r : FaultRecord} (hf : s.fault = some r) : step s = .next s := by
  unfold step
  split <;> simp_all

/-- With nothing scheduled the step is an instruction step. -/
theorem step_of_nil {s : State} (hf : s.fault = none) (hs : s.schedule = []) : step s = instrStep s := by
  unfold step
  split <;> simp_all

/-- A scheduled `step` transaction is an instruction step. -/
theorem step_of_step {s : State} {rest : List Transaction} (hf : s.fault = none) (hs : s.schedule = .step :: rest) :
    step s = instrStep { s with schedule := rest } := by
  unfold step
  split <;> simp_all

/-- A scheduled tick (45_timers_input.md R214). -/
theorem step_of_tick {s : State} {rest : List Transaction} (hf : s.fault = none) (hs : s.schedule = .tick :: rest) :
    step s = .next { s with dt := countDown s.dt, st := countDown s.st, schedule := rest } := by
  unfold step
  split <;> simp_all [tick_of_none]

/-- A scheduled input update (45_timers_input.md R216). -/
theorem step_of_inputUpdate {s : State} {rest : List Transaction} {h r : BitVec 16} (hf : s.fault = none)
    (hs : s.schedule = .inputUpdate h r :: rest) : step s = .next { s with held := h, rel := r, schedule := rest } := by
  unfold step
  split <;> simp_all [inputUpdate_of_none]

/-- Everything a step can be: no effect after a fault, an instruction step, a tick or an input update. -/
theorem step_cases (s : State) :
    ((∃ r, s.fault = some r) ∧ step s = .next s) ∨
    (s.fault = none ∧ (s.schedule = [] ∨ ∃ rest, s.schedule = .step :: rest) ∧
      step s = instrStep { s with schedule := s.schedule.tail }) ∨
    (s.fault = none ∧ (∃ rest, s.schedule = .tick :: rest) ∧
      step s = .next { s with dt := countDown s.dt, st := countDown s.st, schedule := s.schedule.tail }) ∨
    (s.fault = none ∧ ∃ h r rest, s.schedule = .inputUpdate h r :: rest ∧
      step s = .next { s with held := h, rel := r, schedule := s.schedule.tail }) := by
  rcases hf : s.fault with _ | r
  · rcases hs : s.schedule with _ | ⟨_ | _ | ⟨h, r⟩, rest⟩
    · refine .inr (.inl ⟨rfl, .inl rfl, ?_⟩)
      rw [step_of_nil hf hs, List.tail_nil, ← hs, ← hf]
    · exact .inr (.inl ⟨rfl, .inr ⟨rest, rfl⟩, by rw [step_of_step hf hs]; simp [hf]⟩)
    · exact .inr (.inr (.inl ⟨rfl, ⟨rest, rfl⟩, by rw [step_of_tick hf hs]; simp [hf]⟩))
    · exact .inr (.inr (.inr ⟨rfl, h, r, rest, rfl, by rw [step_of_inputUpdate hf hs]; simp [hf]⟩))
  · exact .inl ⟨⟨r, rfl⟩, step_of_fault hf⟩

/-- An instruction step runs the decoded word on the state with PC advanced, or raises the fetch fault (40_cycle.md R104). -/
theorem instrStep_cases (s : State) :
    (s.pc.toNat ≤ 0xFFE ∧ instrStep s = exec (decode s.fetchWord) (s.setPc (s.pc + 2))) ∨
    (s.pc.toNat > 0xFFE ∧ instrStep s = .fault (.fetchOutOfRange (s.withFault .fetchOutOfRange s.pc))) :=
  fetch_cases s _

/-- The two bytes at PC, given to the decoder, are the fetched word decoded. -/
theorem decodeBytes_fetch (s : State) :
    decodeBytes [s.byteAt s.pc.toNat, s.byteAt (s.pc.toNat + 1)] = .ok (decode s.fetchWord, []) := rfl

end Sys2Proof.Machine
end

