-- ==== Sys2Proof/Tests/Slice0.lean ====
section
/-! SUPPORT. The model's own tests. Expected values come from spec/95_test_vectors.md (the vector is named) or from the words of
30_encoding.md R74 and R76 written out bit by bit. After them, for every obligation with hypotheses, a witness that meets them. -/

namespace Sys2Proof.Tests
open Sys2Proof Sys2Proof.Machine

/-! ### Helpers -/

/-- The state after the step of the word `w` at PC. -/
def after (w : Nat) (s : State) : State := settle (s.withFetchWord 16 w)

/-- The step of the word `w` at PC. -/
def stepOn (w : Nat) (s : State) : Result := step (s.withFetchWord 16 w)

/-- A state after reset with two registers set. -/
def regs2 (x : RegIx) (a : Byte) (y : RegIx) (b : Byte) : State := (State.reset.setReg x a).setReg y b

/-- The same state in legacy mode. -/
def legacyOf (s : State) : State := { s with legacy := true }

/-- The same state with `I` and memory bytes at `I` set. -/
def withBytes (s : State) (i : Word) (bs : List Byte) : State := { s with i := i, mem := s.mem.writeBytes i.toNat bs }

/-- The `n` bytes of memory from `a` up. -/
def bytesFrom (s : State) (a n : Nat) : List Byte := (List.range n).map (fun k => s.byteAt (a + k))

/-- What a result is: a next state, a fault of a kind, or a refusal. -/
inductive Shape
  | next
  | fault (k : FaultKind)
  | refused (r : Refusal)
  deriving DecidableEq, Repr

def shapeOf (r : Result) : Shape :=
  match r with
  | .next _ => .next
  | .fault f => .fault f.kind
  | .refused r => .refused r

theorem next_of_shape {r : Result} (h : shapeOf r = .next) : ∃ t, r = .next t := by
  cases r with
  | next t => exact ⟨t, rfl⟩
  | fault f => cases h
  | refused r => cases h

theorem fault_of_shape {r : Result} {k : FaultKind} (h : shapeOf r = .fault k) : ∃ f, r = .fault f ∧ f.kind = k := by
  cases r with
  | next t => cases h
  | fault f => exact ⟨f, rfl, Shape.fault.inj h⟩
  | refused r => cases h

/-! ### Decoding: one word per row of 30_encoding.md R74 -/

theorem test_decode_control_flow :
    decode 0b0000000011101110#16 = .ret ∧ decode 0b0001101010111100#16 = .jp 0xABC ∧
    decode 0b0010010000000000#16 = .call 0x400 ∧ decode 0b0011000100010010#16 = .seImm 0x1 0x12 ∧
    decode 0b0100000100010011#16 = .sneImm 0x1 0x13 ∧ decode 0b0101000100100000#16 = .seReg 0x1 0x2 ∧
    decode 0b1001000100100000#16 = .sneReg 0x1 0x2 ∧ decode 0b1011001100000000#16 = .jpV0 0x300 := by decide

theorem test_decode_alu :
    decode 0b0110101001000010#16 = .ldImm 0xA 0x42 ∧ decode 0b0111000000000001#16 = .addImm 0x0 0x01 ∧
    decode 0b1000000100100000#16 = .ldReg 0x1 0x2 ∧ decode 0b1000000100100001#16 = .orReg 0x1 0x2 ∧
    decode 0b1000000100100010#16 = .andReg 0x1 0x2 ∧ decode 0b1000000100100011#16 = .xorReg 0x1 0x2 ∧
    decode 0b1000000100100100#16 = .addReg 0x1 0x2 ∧ decode 0b1000000100100101#16 = .subReg 0x1 0x2 := by decide

theorem test_decode_alu_shifts :
    decode 0b1000000100100110#16 = .shr 0x1 0x2 ∧ decode 0b1000000100100111#16 = .subnReg 0x1 0x2 ∧
    decode 0b1000000100101110#16 = .shl 0x1 0x2 ∧ decode 0b1100001100001111#16 = .rnd 0x3 0x0F := by decide

theorem test_decode_index_memory :
    decode 0b1010000100100011#16 = .ldI 0x123 ∧ decode 0b1111001000011110#16 = .addI 0x2 ∧
    decode 0b1111001000101001#16 = .ldF 0x2 ∧ decode 0b1111101000110011#16 = .ldB 0xA ∧
    decode 0b1111001001010101#16 = .storeRegs 0x2 ∧ decode 0b1111001001100101#16 = .loadRegs 0x2 := by decide

theorem test_decode_display :
    decode 0b0000000011100000#16 = .cls ∧ decode 0b1101000100100101#16 = .drw 0x1 0x2 0x5 := by decide

theorem test_decode_timers_input :
    decode 0b1110000110011110#16 = .skp 0x1 ∧ decode 0b1110000110100001#16 = .sknp 0x1 ∧
    decode 0b1111010000000111#16 = .ldVxDt 0x4 ∧ decode 0b1111010100001010#16 = .ldVxK 0x5 ∧
    decode 0b1111010000010101#16 = .ldDtVx 0x4 ∧ decode 0b1111010000011000#16 = .ldStVx 0x4 := by decide

/-- One word of each unmatched space (R76), and the look-alikes of vectors T6 to T8. -/
theorem test_decode_unmatched :
    decode 0x0000 = .unmatched 0x0000 ∧ decode 0x00FE = .unmatched 0x00FE ∧ decode 0x5121 = .unmatched 0x5121 ∧
    decode 0x8128 = .unmatched 0x8128 ∧ decode 0x9121 = .unmatched 0x9121 ∧ decode 0xE1A0 = .unmatched 0xE1A0 ∧
    decode 0xF130 = .unmatched 0xF130 := by decide

/-- A word is two bytes, the high one first; one byte alone holds no instruction (R70). -/
theorem test_decode_bytes :
    decodeBytes [0x6A, 0x42, 0x99] = .ok (.ldImm 0xA 0x42, [0x99]) ∧ decodeBytes [0x6A] = .error .truncated := ⟨rfl, rfl⟩

theorem test_decode_table_word :
    decodeTableWord 16 0x8126 = some (.shr 0x1 0x2) ∧ decodeTableWord 16 0x00EE = some .ret := by decide

theorem test_encode :
    encode (.drw 0x1 0x2 0x5) = 0xD125 ∧ encode (.call 0x400) = 0x2400 ∧ encode (.sknp 0x1) = 0xE1A1 ∧
    encodeBytes (.ldB 0xA) = [0xFA, 0x33] := by decide

/-! ### Well-formedness: an ill-formed term for the one check -/

theorem test_ill_formed_matched_words :
    (Instr.unmatched 0x00E0).wellFormed = false ∧ (Instr.unmatched 0x1200).wellFormed = false ∧
    (Instr.unmatched 0x5120).wellFormed = false ∧ (Instr.unmatched 0x812E).wellFormed = false ∧
    (Instr.unmatched 0x9120).wellFormed = false ∧ (Instr.unmatched 0xE1A1).wellFormed = false ∧
    (Instr.unmatched 0xF165).wellFormed = false := by decide

theorem test_well_formed :
    (Instr.unmatched 0x0000).wellFormed = true ∧ (Instr.unmatched 0x8128).wellFormed = true ∧
    (Instr.drw 0xF 0xF 0xF).wellFormed = true := by decide

/-! ### The step (vectors T2 to T10) -/

theorem test_T2_last_word : (after 0x0000 { State.reset with pc := 0xFFE }).pc = 0x1000 := by decide

theorem test_T3_fetch_fault :
    step { State.reset with pc := 0xFFF } =
      .fault (.fetchOutOfRange { State.reset with pc := 0xFFF, fault := some ⟨.fetchOutOfRange, 0xFFF⟩ }) := rfl

theorem test_T7_unmatched : (after 0x8128 State.reset).pc = 0x202 ∧ (after 0x8128 State.reset).v = State.reset.v := by decide

theorem test_T9_odd_pc :
    (after 0x6A05 { State.reset with pc := 0x201 }).reg 0xA = 0x05 ∧
    (after 0x6A05 { State.reset with pc := 0x201 }).pc = 0x203 := by decide

theorem test_T10_faulted :
    step { State.reset with fault := some ⟨.memOutOfRange, 0x300⟩, schedule := [.tick] } =
      .next { State.reset with fault := some ⟨.memOutOfRange, 0x300⟩, schedule := [.tick] } := rfl

/-! ### Control flow (vectors C1 to C19) -/

theorem test_C1_jp : (after 0x1ABC State.reset).pc = 0xABC := by decide

theorem test_C3_call :
    (after 0x2400 State.reset).stk[15] = 0x202 ∧ (after 0x2400 State.reset).sp = 15 ∧
    (after 0x2400 State.reset).pc = 0x400 := by decide

theorem test_C4_call_full :
    (after 0x2400 { State.reset with sp := 0 }).errlog = [⟨.stackOverflow, 0x200⟩] ∧
    (after 0x2400 { State.reset with sp := 0 }).pc = 0x202 ∧ (after 0x2400 { State.reset with sp := 0 }).sp = 0 := by decide

/-- The state of vector C7. -/
def stackOfTwo : State := { State.reset with sp := 14, stk := (State.reset.stk.set 14 0x456).set 15 0x202 }

theorem test_C7_ret : (after 0x00EE stackOfTwo).pc = 0x456 ∧ (after 0x00EE stackOfTwo).sp = 15 := by decide

theorem test_C6_ret_empty :
    (after 0x00EE { State.reset with pc := 0x300 }).errlog = [⟨.stackUnderflow, 0x300⟩] ∧
    (after 0x00EE { State.reset with pc := 0x300 }).pc = 0x302 := by decide

theorem test_C8_seImm :
    (after 0x3112 (State.reset.setReg 1 0x12)).pc = 0x204 ∧ (after 0x3113 (State.reset.setReg 1 0x12)).pc = 0x202 := by decide

theorem test_C9_sneImm :
    (after 0x4112 (State.reset.setReg 1 0x12)).pc = 0x202 ∧ (after 0x4113 (State.reset.setReg 1 0x12)).pc = 0x204 := by decide

theorem test_C10_seReg :
    (after 0x5120 (regs2 1 0x07 2 0x07)).pc = 0x204 ∧ (after 0x5120 (regs2 1 0x07 2 0x08)).pc = 0x202 := by decide

theorem test_C12_sneReg :
    (after 0x9120 (regs2 1 0x07 2 0x08)).pc = 0x204 ∧ (after 0x9120 (regs2 1 0x07 2 0x07)).pc = 0x202 := by decide

theorem test_C14_C15_jpV0 :
    (after 0xB300 (legacyOf (regs2 0 0x10 3 0x05))).pc = 0x310 ∧ (after 0xB300 (regs2 0 0x10 3 0x05)).pc = 0x305 := by decide

theorem test_C16_jpV0_above_memory : (after 0xBFFF (legacyOf (State.reset.setReg 0 0xFF))).pc = 0x10FE := by decide

/-! ### Arithmetic-logic unit (vectors A1 to A41) -/

theorem test_A1_ldImm : (after 0x6A42 State.reset).reg 0xA = 0x42 := by decide

theorem test_A3_addImm :
    (after 0x7001 (regs2 0 0xFF 0xF 0x05)).reg 0 = 0x00 ∧ (after 0x7001 (regs2 0 0xFF 0xF 0x05)).reg 0xF = 0x05 := by decide

theorem test_A6_ldReg : (after 0x8120 (State.reset.setReg 2 0x33)).reg 1 = 0x33 := by decide

theorem test_A7_or :
    (after 0x8121 ((regs2 1 0xF0 2 0x0F).setReg 0xF 0x07)).reg 1 = 0xFF ∧
    (after 0x8121 ((regs2 1 0xF0 2 0x0F).setReg 0xF 0x07)).reg 0xF = 0x07 := by decide

theorem test_A8_and : (after 0x8122 (regs2 1 0xF0 2 0x3C)).reg 1 = 0x30 := by decide

theorem test_A9_xor : (after 0x8123 (regs2 1 0xFF 2 0x0F)).reg 1 = 0xF0 := by decide

theorem test_A11_add :
    (after 0x8124 (regs2 1 0xFF 2 0x01)).reg 1 = 0x00 ∧ (after 0x8124 (regs2 1 0xFF 2 0x01)).reg 0xF = 1 := by decide

/-- The flag is written last (vector A15). -/
theorem test_A15_add_into_flag : (after 0x8F14 (regs2 0xF 0xFF 1 0x01)).reg 0xF = 0x01 := by decide

theorem test_A18_sub :
    (after 0x8125 (regs2 1 0x03 2 0x05)).reg 1 = 0xFE ∧ (after 0x8125 (regs2 1 0x03 2 0x05)).reg 0xF = 0 := by decide

theorem test_A19_sub_equal :
    (after 0x8125 (regs2 1 0x05 2 0x05)).reg 1 = 0x00 ∧ (after 0x8125 (regs2 1 0x05 2 0x05)).reg 0xF = 1 := by decide

theorem test_A24_shr_modern :
    (after 0x8126 (regs2 1 0xFF 2 0x04)).reg 1 = 0x7F ∧ (after 0x8126 (regs2 1 0xFF 2 0x04)).reg 0xF = 1 := by decide

theorem test_A25_shr_legacy :
    (after 0x8126 (legacyOf (regs2 1 0xFF 2 0x04))).reg 1 = 0x02 ∧
    (after 0x8126 (legacyOf (regs2 1 0xFF 2 0x04))).reg 0xF = 0 := by decide

theorem test_A31_subn :
    (after 0x8127 (regs2 1 0x05 2 0x03)).reg 1 = 0xFE ∧ (after 0x8127 (regs2 1 0x05 2 0x03)).reg 0xF = 0 := by decide

theorem test_A35_shl_modern :
    (after 0x812E (regs2 1 0x01 2 0x81)).reg 1 = 0x02 ∧ (after 0x812E (regs2 1 0x01 2 0x81)).reg 0xF = 0 := by decide

theorem test_A36_shl_legacy :
    (after 0x812E (legacyOf (regs2 1 0x01 2 0x81))).reg 1 = 0x02 ∧
    (after 0x812E (legacyOf (regs2 1 0x01 2 0x81))).reg 0xF = 1 := by decide

theorem test_A39_rnd :
    (after 0xC30F { State.reset with randIn := [0xAB, 0xCD] }).reg 3 = 0x0B ∧
    (after 0xC30F { State.reset with randIn := [0xAB, 0xCD] }).randIn = [0xCD] := by decide

/-- Whatever the free draw is, a zero mask gives zero (vector A40). -/
theorem test_A40_rnd_free : (after 0xC300 State.reset).reg 3 = 0x00 := BitVec.and_zero

/-! ### Index register and memory (vectors M1 to M22) -/

theorem test_M1_ldI : (after 0xA123 State.reset).i = 0x123 := by decide

theorem test_M5_addI :
    (after 0xF11E { State.reset.setReg 1 0x01 with i := 0xFFFF }).i = 0x0000 ∧
    (after 0xF11E { State.reset.setReg 1 0x01 with i := 0xFFFF }).reg 0xF = 1 := by decide

theorem test_M3_addI :
    (after 0xF11E { State.reset.setReg 1 0x01 with i := 0x0FFE }).i = 0x0FFF ∧
    (after 0xF11E { State.reset.setReg 1 0x01 with i := 0x0FFE }).reg 0xF = 0 := by decide

theorem test_M9_ldF :
    (after 0xF229 (State.reset.setReg 2 0x0F)).i = 0x09B ∧ (after 0xF229 (State.reset.setReg 2 0xF3)).i = 0x05F := by decide

theorem test_M12_ldB :
    bytesFrom (after 0xFA33 { State.reset.setReg 0xA 0x7B with i := 0xFFD }) 0xFFD 3 = [0x01, 0x02, 0x03] := by decide

theorem test_M13_ldB_fault :
    shapeOf (stepOn 0xFA33 { State.reset with i := 0xFFE }) = .fault .memOutOfRange ∧
    (after 0xFA33 { State.reset with i := 0xFFE }).pc = 0x200 ∧
    (after 0xFA33 { State.reset with i := 0xFFE }).fault = some ⟨.memOutOfRange, 0x200⟩ := by decide

/-- V0 to V2 hold 01 02 03 and I is 0x300 (vectors M14, M15). -/
def threeRegs : State := { (regs2 0 0x01 1 0x02).setReg 2 0x03 with i := 0x300 }

theorem test_M14_storeRegs :
    bytesFrom (after 0xF255 threeRegs) 0x300 4 = [0x01, 0x02, 0x03, 0x00] ∧ (after 0xF255 threeRegs).i = 0x300 := by decide

theorem test_M15_storeRegs_legacy : (after 0xF255 (legacyOf threeRegs)).i = 0x303 := by decide

theorem test_M19_loadRegs :
    (after 0xF265 (withBytes State.reset 0x300 [0x01, 0x05, 0x06])).v.toList.take 4 = [0x01, 0x05, 0x06, 0x00] := by decide

theorem test_M20_loadRegs_legacy :
    (after 0xF065 (legacyOf (withBytes State.reset 0x300 [0x09]))).reg 0 = 0x09 ∧
    (after 0xF065 (legacyOf (withBytes State.reset 0x300 [0x09]))).i = 0x301 := by decide

/-- Writing back what an unlisted address reads as takes the cell out again. -/
theorem test_memory_canonical :
    (Memory.write [] 0x300 0x07) = [(0x300, 0x07)] ∧ Memory.write [(0x300, 0x07)] 0x300 0x00 = [] ∧
    Memory.write [] 0x050 0xF0 = [] ∧ Memory.write [] 0x1000 0x07 = [] := by decide

/-! ### Framebuffer (vectors D1 to D13) -/

/-- A framebuffer with the one pixel (x, y) on. -/
def onePixel (x y : Nat) : State := { State.reset with fb := flipPixel clearFrame x y }

theorem test_D1_cls : (after 0x00E0 (onePixel 63 31)).fb = clearFrame := by decide

theorem test_D5_drw_clips :
    (after 0xD121 (withBytes (regs2 1 0x3E 2 0x00) 0x300 [0xFF])).fb =
      (flipPixel (flipPixel clearFrame 62 0) 63 0) ∧
    (after 0xD121 (withBytes (regs2 1 0x3E 2 0x00) 0x300 [0xFF])).reg 0xF = 0 := by decide

theorem test_D12_drw_collides :
    (after 0xD121 (withBytes (onePixel 0 0) 0x300 [0xC0])).fb = flipPixel clearFrame 1 0 ∧
    (after 0xD121 (withBytes (onePixel 0 0) 0x300 [0xC0])).reg 0xF = 1 := by decide

/-! ### Timers and input (vectors K1 to K14) -/

theorem test_K1_ldVxDt : (after 0xF407 { State.reset with dt := 0x3C }).reg 4 = 0x3C := by decide

theorem test_K2_ldDtVx : (after 0xF415 (State.reset.setReg 4 0x3C)).dt = 0x3C := by decide

theorem test_K3_ldStVx :
    (after 0xF418 (State.reset.setReg 4 0x05)).st = 0x05 ∧ toneOut (after 0xF418 (State.reset.setReg 4 0x05)) = true := by
  decide

theorem test_K5_tick :
    (settle { State.reset with st := 3, schedule := [.tick] }).st = 2 ∧
    (settle { State.reset with st := 3, schedule := [.tick] }).dt = 0 := by decide

theorem test_K7_skp :
    (after 0xE19E { State.reset.setReg 1 0x05 with held := 0x0020 }).pc = 0x204 ∧
    (after 0xE19E (State.reset.setReg 1 0x05)).pc = 0x202 := by decide

theorem test_K8_sknp :
    (after 0xE1A1 { State.reset.setReg 1 0x05 with held := 0x0020 }).pc = 0x202 ∧
    (after 0xE1A1 (State.reset.setReg 1 0x05)).pc = 0x204 := by decide

theorem test_K9_key_fault :
    shapeOf (stepOn 0xE19E (State.reset.setReg 1 0x10)) = .fault .keyOutOfRange ∧
    shapeOf (stepOn 0xE1A1 (State.reset.setReg 1 0x10)) = .fault .keyOutOfRange ∧
    (after 0xE19E (State.reset.setReg 1 0x10)).fault = some ⟨.keyOutOfRange, 0x200⟩ := by decide

theorem test_K10_key_wait :
    (after 0xF50A { State.reset.setReg 5 0x77 with held := 0x0010 }).pc = 0x200 ∧
    (after 0xF50A { State.reset.setReg 5 0x77 with held := 0x0010 }).reg 5 = 0x77 := by decide

theorem test_K11_key_found :
    (after 0xF50A { State.reset with rel := 0x0208 }).reg 5 = 0x03 ∧
    (after 0xF50A { State.reset with rel := 0x0208 }).pc = 0x202 := by decide

theorem test_K14_input_update :
    (settle { State.reset with schedule := [.inputUpdate 0x0021 0x0100] }).held = 0x0021 ∧
    (settle { State.reset with schedule := [.inputUpdate 0x0021 0x0100] }).rel = 0x0100 := by decide

/-! ### Loading (vectors L1 to L3) -/

/-- The default font as the load takes it (70_reset_and_hazards.md R264). -/
def defaultFont : Vector Byte 80 := ⟨Config.font.toArray, rfl⟩

theorem test_L2_too_long :
    shapeOf (load false (fun _ => 0) defaultFont (some (List.replicate 3585 0))) = .refused .romTooLong := by
  rw [load_of_too_long _ _ _ (by rw [List.length_replicate]; decide)]
  rfl

theorem test_L3_small_rom :
    shapeOf (load false (fun _ => 0) defaultFont (some [0x12, 0x00])) = .next ∧
    shapeOf (load false (fun _ => 0) defaultFont none) = .refused .romUnreadable := ⟨rfl, rfl⟩

/-- The ROM bytes, the font and `MEM_INIT` in the loaded image (vector L3). -/
theorem test_L3_image :
    (List.range 5).map (fun k => loadImage (fun _ => 0) defaultFont [0x12, 0x00] (0x050 + k)) = [0xF0, 0x90, 0x90, 0x90, 0xF0] ∧
    loadImage (fun _ => 0) defaultFont [0x12, 0x00] 0x200 = 0x12 ∧
    loadImage (fun _ => 0) defaultFont [0x12, 0x00] 0x201 = 0x00 ∧
    loadImage (fun _ => 0x77) defaultFont [0x12, 0x00] 0x202 = 0x77 := by decide

/-! ### Witnesses: a concrete state and operands that meet the hypotheses of each obligation, clause by clause -/

theorem witness_DecodeEncodeRoundTrip :
    (Instr.drw 0xF 0xF 0xF).wellFormed = true ∧ (Instr.jp 0xFFF).wellFormed = true ∧
    (Instr.unmatched 0xFFFF).wellFormed = true := by decide

/-- A word a row selects, and a word no row selects. -/
theorem witness_DecodeSelectsRowAndFields :
    (∃ r ∈ opcodeRows, 0x8126#16 &&& r.mask = r.value) ∧ ∀ r ∈ opcodeRows, 0xFFFF#16 &&& r.mask ≠ r.value := by decide

theorem witness_UnmatchedWordsExactly : isUnmatchedWord 0xFFFF = true ∧ isUnmatchedWord 0x00E0 = false := by decide

/-- `LD VA, 0x42` at the last address a fetch can start at; the same with a step scheduled. -/
def atTop : State := { State.reset with pc := 0xFFE, mem := [(0xFFE, 0x6A), (0xFFF, 0x42)] }

theorem witness_StepRunsDecodedInstruction :
    atTop.fault = none ∧ atTop.pc.toNat ≤ 0xFFE ∧ atTop.schedule = [] ∧
    ({ atTop with schedule := [.step, .tick] } : State).schedule = .step :: [.tick] ∧
    decodeBytes [atTop.byteAt atTop.pc.toNat, atTop.byteAt (atTop.pc.toNat + 1)] = .ok (.ldImm 0xA 0x42, []) :=
  ⟨rfl, by decide, rfl, rfl, rfl⟩

theorem witness_FetchOutOfRangeFaults :
    ({ State.reset with pc := 0xFFF } : State).fault = none ∧ ({ State.reset with pc := 0xFFF } : State).schedule = [] ∧
    ({ State.reset with pc := 0xFFF } : State).pc.toNat > 0xFFE := ⟨rfl, rfl, by decide⟩

theorem witness_UnmatchedWordOnlyAdvancesPc :
    State.reset.fault = none ∧ State.reset.schedule = [] ∧ State.reset.pc.toNat ≤ 0xFFE ∧
    ∀ r ∈ opcodeRows, State.reset.fetchWord &&& r.mask ≠ r.value := ⟨rfl, rfl, by decide, by decide⟩

theorem witness_FaultedMachineIgnoresTransactions :
    ({ State.reset with fault := some ⟨.memOutOfRange, 0x300⟩ } : State).fault = some ⟨.memOutOfRange, 0x300⟩ := rfl

/-- The state with the word `w` at PC: no fault, nothing scheduled, the word decodes to `i`, the step answers a next state. -/
def Runs (s : State) (w : Nat) (i : Instr) : Prop :=
  (s.withFetchWord 16 w).fault = none ∧ (s.withFetchWord 16 w).schedule = [] ∧
  decode (s.withFetchWord 16 w).fetchWord = i ∧ ∃ t, stepOn w s = .next t

theorem runs_of {s : State} {w : Nat} {i : Instr} (hd : decode (s.withFetchWord 16 w).fetchWord = i)
    (hs : shapeOf (stepOn w s) = .next) : Runs s w i := ⟨rfl, rfl, hd, next_of_shape hs⟩

theorem witness_PcAfterInstruction_skip : Runs State.reset 0x3000 (.seImm 0 0) ∧ isSkip (.seImm 0 0) = true :=
  ⟨runs_of (by decide) (by decide), rfl⟩

theorem witness_PcAfterInstruction_wait :
    Runs State.reset 0xF00A (.ldVxK 0) ∧ Runs { State.reset with rel := 0x8000 } 0xF00A (.ldVxK 0) :=
  ⟨runs_of (by decide) (by decide), runs_of (by decide) (by decide)⟩

theorem witness_PcAfterInstruction_jump : Runs State.reset 0x1FFF (.jp 0xFFF) ∧ Runs State.reset 0xBFFF (.jpV0 0xFFF) :=
  ⟨runs_of (by decide) (by decide), runs_of (by decide) (by decide)⟩

theorem witness_PcAfterInstruction_call :
    Runs { State.reset with sp := 1 } 0x2400 (.call 0x400) ∧ ({ State.reset with sp := 1 } : State).sp ≠ 0 ∧
    Runs { State.reset with sp := 0 } 0x2400 (.call 0x400) ∧ ({ State.reset with sp := 0 } : State).sp = 0 :=
  ⟨runs_of (by decide) (by decide), by decide, runs_of (by decide) (by decide), rfl⟩

theorem witness_PcAfterInstruction_ret :
    Runs { State.reset with sp := 15 } 0x00EE .ret ∧ ({ State.reset with sp := 15 } : State).sp.toNat < 16 ∧
    Runs State.reset 0x00EE .ret ∧ State.reset.sp.toNat ≥ 16 :=
  ⟨runs_of (by decide) (by decide), by decide, runs_of (by decide) (by decide), by decide⟩

theorem witness_PcAfterInstruction_other : Runs State.reset 0x00E0 .cls ∧ isSkip .cls = false :=
  ⟨runs_of (by decide) (by decide), rfl⟩

theorem witness_ParkedStateStepsToItself :
    (State.reset.withFetchWord 16 0x1200).fault = none ∧ (State.reset.withFetchWord 16 0x1200).schedule = [] ∧
    parked (State.reset.withFetchWord 16 0x1200) := ⟨rfl, rfl, by decide, 0x200, by decide, by decide⟩

theorem witness_ScheduledTransactionIsTheStep :
    ({ State.reset with dt := 0, st := 1, schedule := [.tick] } : State).fault = none ∧
    ({ State.reset with dt := 0, st := 1, schedule := [.tick] } : State).schedule = .tick :: [] ∧
    ({ State.reset with schedule := [.inputUpdate 0x8001 0x0100, .step] } : State).schedule =
      .inputUpdate 0x8001 0x0100 :: [.step] := ⟨rfl, rfl, rfl⟩

theorem witness_FaultsArePrecise :
    (∃ f, step { State.reset with pc := 0x1000 } = .fault f) ∧ (∃ f, stepOn 0xF155 { State.reset with i := 0xFFF } = .fault f) ∧
    ∃ f, stepOn 0xE19E (State.reset.setReg 1 0x10) = .fault f := by
  obtain ⟨f, hf, -⟩ : ∃ f, step { State.reset with pc := 0x1000 } = .fault f ∧ f.kind = .fetchOutOfRange :=
    fault_of_shape (by decide)
  obtain ⟨g, hg, -⟩ : ∃ f, stepOn 0xF155 { State.reset with i := 0xFFF } = .fault f ∧ f.kind = .memOutOfRange :=
    fault_of_shape (by decide)
  obtain ⟨k, hk, -⟩ : ∃ f, stepOn 0xE19E (State.reset.setReg 1 0x10) = .fault f ∧ f.kind = .keyOutOfRange :=
    fault_of_shape (by decide)
  exact ⟨⟨f, hf⟩, ⟨g, hg⟩, ⟨k, hk⟩⟩

/-- Each memory fault at its first out-of-range index, none one below it; DXY0 never. -/
theorem witness_FaultCauses_mem :
    memFaults (.drw 0 0 1) { State.reset with i := 0x1000 } ∧ ¬ memFaults (.drw 0 0 1) { State.reset with i := 0xFFF } ∧
    ¬ memFaults (.drw 0 0 0) { State.reset with i := 0xFFFF } ∧ memFaults (.ldB 0) { State.reset with i := 0xFFE } ∧
    ¬ memFaults (.ldB 0) { State.reset with i := 0xFFD } ∧ memFaults (.storeRegs 1) { State.reset with i := 0xFFF } ∧
    ¬ memFaults (.loadRegs 0) { State.reset with i := 0xFFF } := by
  simp only [memFaults]; decide

theorem witness_FaultCauses_key :
    keyFaults (.skp 1) (State.reset.setReg 1 16) ∧ ¬ keyFaults (.sknp 1) (State.reset.setReg 1 15) := by
  simp only [keyFaults]; decide

theorem witness_FaultCauses_fetch :
    ({ State.reset with pc := 0xFFF } : State).pc.toNat > 0xFFE ∧ ¬ ({ State.reset with pc := 0xFFE } : State).pc.toNat > 0xFFE := by
  decide

theorem witness_ErrorReports :
    spLegal { State.reset with sp := 0 } ∧ ({ State.reset with sp := 0 } : State).sp = 0 ∧
    spLegal State.reset ∧ State.reset.sp = 16 := by unfold spLegal; decide

/-- With one entry used, neither stack instruction reports. -/
theorem witness_ErrorReports_none :
    spLegal { State.reset with sp := 15 } ∧ (∃ t, exec .ret { State.reset with sp := 15 } = .next t) ∧
    ({ State.reset with sp := 15 } : State).sp ≠ 16 := ⟨by unfold spLegal; decide, ⟨_, rfl⟩, by decide⟩

theorem witness_ErrlogIsAppendOnly : ∃ t, stepOn 0x00EE State.reset = .next t := next_of_shape (by decide)

/-- Canonical memory with two cells listed, through a store and through a fault. -/
theorem witness_StepKeepsMemoryCanonical :
    (State.reset.withFetchWord 16 0xFA33).mem.wf ∧ (∃ t, stepOn 0xFA33 { State.reset with i := 0xFFD } = .next t) ∧
    ∃ f, stepOn 0xFA33 { State.reset with i := 0xFFE } = .fault f ∧ f.kind = .memOutOfRange :=
  ⟨by decide, next_of_shape (by decide), fault_of_shape (by decide)⟩

theorem witness_StepKeepsStackPointerLegal :
    spLegal { State.reset with sp := 0 } ∧ (∃ t, stepOn 0x2400 { State.reset with sp := 0 } = .next t) ∧
    ∃ f, stepOn 0xF155 { State.reset with i := 0xFFF } = .fault f ∧ f.kind = .memOutOfRange :=
  ⟨by unfold spLegal; decide, next_of_shape (by decide), fault_of_shape (by decide)⟩

theorem witness_StepKeepsPcBounded :
    pcBounded { State.reset with pc := 0x10FE } ∧
    (∃ f, step { State.reset with pc := 0x10FE } = .fault f ∧ f.kind = .fetchOutOfRange) ∧
    pcBounded { State.reset with pc := 0xFFC } ∧ ∃ t, stepOn 0x3000 { State.reset with pc := 0xFFC } = .next t :=
  ⟨⟨by decide, fun j h hs => absurd (show 16 ≤ j from hs) (by omega)⟩, fault_of_shape (by decide),
    ⟨by decide, fun j h hs => absurd (show 16 ≤ j from hs) (by omega)⟩, next_of_shape (by decide)⟩

theorem witness_StepKeepsConfiguration_and_LoadMeetsInvariants :
    ∃ t, load true (fun _ => 0xFF) defaultFont (some [0x12, 0x00]) = .next t := ⟨_, rfl⟩

theorem witness_RegisterAndFlagWriters :
    (writesFlag (.addI 3) = true ∧ ∃ t, exec (.addI 3) State.reset = .next t) ∧
    (writesFlag (.ldImm 3 7) = false ∧ namesDest (.ldImm 3 7) 0xF = false ∧ ∃ t, exec (.ldImm 3 7) State.reset = .next t) ∧
    ((4 : RegIx) ≠ 0xF ∧ namesDest (.loadRegs 3) 4 = false ∧ ∃ t, exec (.loadRegs 3) State.reset = .next t) :=
  ⟨⟨rfl, _, rfl⟩, ⟨rfl, rfl, _, rfl⟩, by decide, rfl, _, rfl⟩

/-- One instruction that meets every clause of the statement. -/
theorem witness_UnitsWrittenOnlyByTheirInstructions :
    (∃ t, exec .cls State.reset = .next t) ∧ (∃ t, exec (.jp 0x300) State.reset = .next t) ∧ Instr.jp 0x300 ≠ .cls ∧
    Instr.jp 0x300 ≠ .ret := ⟨⟨_, rfl⟩, ⟨_, rfl⟩, by decide, by decide⟩

theorem witness_CallPushesReturnAddress :
    0 < ({ State.reset with sp := 1 } : State).sp.toNat ∧ ({ State.reset with sp := 1 } : State).sp.toNat ≤ 16 ∧
    0 < State.reset.sp.toNat ∧ State.reset.sp.toNat ≤ 16 ∧ ({ State.reset with sp := 0 } : State).sp.toNat = 0 := by decide

theorem witness_RetPopsReturnAddress :
    ({ State.reset with sp := 0 } : State).sp.toNat < 16 ∧ ({ State.reset with sp := 15 } : State).sp.toNat < 16 ∧
    State.reset.sp.toNat ≥ 16 := by decide

theorem witness_ReturnResumesAfterCall :
    0 < State.reset.sp.toNat ∧ State.reset.sp.toNat ≤ 16 ∧ 0 < ({ State.reset with sp := 1 } : State).sp.toNat := by decide

theorem witness_JumpWithOffset :
    (legacyOf State.reset).legacy = true ∧ State.reset.legacy = false ∧ (0xF : RegIx).toNat = (0xFFF : Addr12).toNat / 0x100 ∧
    (0 : RegIx).toNat = (0x0FF : Addr12).toNat / 0x100 := by decide

/-- `X ≠ F` of the additions, subtractions and shifts. -/
theorem witness_AddSetsCarry_Subtractions_Shifts : (0xE : RegIx) ≠ 0xF ∧ (0 : RegIx) ≠ 0xF := by decide

theorem witness_RandomByteIsMasked :
    ({ State.reset with randIn := [0xAB] } : State).randIn = 0xAB :: [] ∧ State.reset.randIn = [] ∧
    (0x0F : Byte).getLsbD 4 = false := by decide

theorem witness_BcdStoresThreeDigits :
    ({ State.reset with i := 0xFFD } : State).i.toNat + 2 ≤ 0xFFF ∧ ({ State.reset with i := 0xFFE } : State).i.toNat + 2 > 0xFFF := by
  decide

/-- FX55 and FX65 with one register at the last address, and with two. -/
theorem witness_StoreRegistersBlock_and_LoadRegistersBlock :
    ({ State.reset with i := 0xFFF } : State).i.toNat + (0 : RegIx).toNat ≤ 0xFFF ∧
    ({ State.reset with i := 0xFF0 } : State).i.toNat + (0xF : RegIx).toNat ≤ 0xFFF ∧
    ({ State.reset with i := 0xFFF } : State).i.toNat + (1 : RegIx).toNat > 0xFFF := by decide

theorem witness_StoreThenLoadRestoresRegisters :
    ({ State.reset with i := 0xFF0 } : State).i.toNat + (0xF : RegIx).toNat ≤ 0xFFF ∧ (0xF : RegIx).toNat ≤ (0xF : RegIx).toNat := by
  decide

theorem witness_StoredBytesAreFetched :
    ({ State.reset with i := 0xFFE } : State).i.toNat + (1 : RegIx).toNat ≤ 0xFFF ∧
    (0xFFE : Word).toNat = ({ State.reset with i := 0xFFE } : State).i.toNat + (0 : RegIx).toNat ∧
    (1 : RegIx).toNat = (0 : RegIx).toNat + 1 ∧ (1 : RegIx).toNat ≤ (1 : RegIx).toNat := by decide

theorem witness_CanonicalMemoryIsUnique :
    Memory.wf [(0x200, 0x12), (0xFFF, 0x01)] ∧
    ∀ a : Nat, a ≤ 0xFFF → Memory.read [(0x200, 0x12), (0xFFF, 0x01)] a = Memory.read [(0x200, 0x12), (0xFFF, 0x01)] a :=
  ⟨by decide, fun _ _ => rfl⟩

/-- DXYN with no row, with its last row at the last address, and one past it. -/
theorem witness_DrawXorsSprite_range :
    (0 : Nibble).toNat = 0 ∧ ({ State.reset with i := 0xFF1 } : State).i.toNat + (0xF : Nibble).toNat - 1 ≤ 0xFFF ∧
    0 < (1 : Nibble).toNat ∧ ({ State.reset with i := 0x1000 } : State).i.toNat + (1 : Nibble).toNat - 1 > 0xFFF := by decide

/-- A sprite byte 01 at columns 56 to 63 covers the last column only; the pixel there may be on or off. -/
theorem witness_DrawXorsSprite_pixels :
    spriteCovers (withBytes (State.reset.setReg 1 0x38) 0x300 [0x01]) 1 2 1 63 0 ∧
    ¬ spriteCovers (withBytes (State.reset.setReg 1 0x38) 0x300 [0x01]) 1 2 1 62 0 ∧
    fbOut (withBytes ((onePixel 63 0).setReg 1 0x38) 0x300 [0x01]) 63 0 = true ∧
    fbOut (withBytes (State.reset.setReg 1 0x38) 0x300 [0x01]) 63 0 = false := by
  simp only [spriteCovers]; decide

theorem witness_DrawTwiceRestoresPixels :
    ({ State.reset with i := 0xFF1 } : State).i.toNat + (0xF : Nibble).toNat - 1 ≤ 0xFFF ∧ (0 : Nibble).toNat = 0 := by decide

theorem witness_TickCountsDown_and_InputUpdateWritesLatch : State.reset.fault = none := rfl

theorem witness_KeySkips :
    ((State.reset.setReg 1 15).reg 1).toNat ≤ 15 ∧ ((State.reset.setReg 1 16).reg 1).toNat > 15 := by decide

theorem witness_KeyWaitTakesLowestKey_released :
    ({ State.reset with rel := 0x8000 } : State).keyReleased 15 = true ∧
    (∀ j : Nat, j < 15 → ({ State.reset with rel := 0x8000 } : State).keyReleased j = false) ∧
    ({ State.reset with rel := 0xFFFF } : State).keyReleased 0 = true := by decide

theorem witness_KeyWaitTakesLowestKey_none : ∀ k : Nat, k < 16 → State.reset.keyReleased k = false := by decide

theorem witness_KeyWaitStepChangesNothing :
    (State.reset.withFetchWord 16 0xF30A).fault = none ∧ (State.reset.withFetchWord 16 0xF30A).schedule = [] ∧
    (State.reset.withFetchWord 16 0xF30A).pc.toNat ≤ 0xFFE ∧
    (State.reset.withFetchWord 16 0xF30A).fetchWord = formatRI 0xF 3 0x0A ∧
    ∀ k : Nat, k < 16 → (State.reset.withFetchWord 16 0xF30A).keyReleased k = false :=
  ⟨rfl, rfl, by decide, by decide, by decide⟩

theorem witness_LoadPlacesImage :
    (List.replicate 3584 (0x12 : Byte)).length ≤ 3584 ∧ (List.replicate 3585 (0x12 : Byte)).length > 3584 ∧
    ¬ (0x050 ≤ 0x0A0 ∧ 0x0A0 < 0x0A0) ∧ ¬ (0x200 ≤ 0x0A0 ∧ 0x0A0 < 0x200 + (List.replicate 3584 (0x12 : Byte)).length) := by
  rw [List.length_replicate, List.length_replicate]; decide

end Sys2Proof.Tests
end

section
/-! SUPPORT. Which parts of the state each instruction writes, and how each of the shared operations completes or faults. -/

namespace Sys2Proof.Machine

/-! ### Completing and faulting -/

/-- A skip that completes leaves PC or moves it past one more word (41_control_flow.md R120). -/
theorem skipIf_next {c : Bool} {s t : State} (h : skipIf c s = .next t) : t = s ∨ t = s.setPc (s.pc + 2) := by
  cases c <;> cases h
  · exact .inl rfl
  · exact .inr rfl

/-- A key skip that completes leaves PC or moves it past one more word (45_timers_input.md R217, R218). -/
theorem withKey_skip_next {x : RegIx} {c : Nat → State → Bool} {s t : State}
    (h : withKey x s (fun k u => skipIf (c k u) u) = .next t) : t = s ∨ t = s.setPc (s.pc + 2) := by
  rcases withKey_cases x s (fun k u => skipIf (c k u) u) with ⟨-, e⟩ | ⟨-, e⟩
  · exact skipIf_next (e ▸ h)
  · cases e.symm.trans h

/-- A key skip can only fault by its key (45_timers_input.md R219). -/
theorem withKey_skip_fault {x : RegIx} {c : Nat → State → Bool} {s : State} {f : Fault}
    (h : withKey x s (fun k u => skipIf (c k u) u) = .fault f) : f.final = s.withFault f.kind s.instrAddr := by
  rcases withKey_cases x s (fun k u => skipIf (c k u) u) with ⟨-, e⟩ | ⟨-, e⟩
  · cases (e.trans (skipIf_eq _ s)).symm.trans h
  · cases e.symm.trans h; rfl

/-- 00EE pops an entry and goes to it, or reports the underflow (41_control_flow.md R122, R123). -/
theorem exec_ret_cases (s : State) :
    (∃ h : s.sp.toNat < 16, exec .ret s = .next { s with sp := s.sp + 1, pc := s.stk[s.sp.toNat]'h }) ∨
    (s.sp.toNat ≥ 16 ∧ exec .ret s = .next { s with errlog := s.errlog ++ [⟨.stackUnderflow, s.instrAddr⟩] }) :=
  pop_cases s (fun a t => .next (t.setPc a))

/-- 2NNN pushes PC and jumps, or reports the overflow (41_control_flow.md R121, R125). -/
theorem exec_call_cases (nnn : Addr12) (s : State) :
    (s.sp ≠ 0 ∧ exec (.call nnn) s =
      .next { s with stk := s.stk.setIfInBounds (s.sp.toNat - 1) s.pc, sp := s.sp - 1, pc := addrWord nnn }) ∨
    (s.sp = 0 ∧ exec (.call nnn) s = .next { s with errlog := s.errlog ++ [⟨.stackOverflow, s.instrAddr⟩] }) :=
  push_cases s.pc s (fun t => .next (t.setPc (addrWord nnn)))

/-- FX0A takes the lowest released key, or goes back to its own address (45_timers_input.md R220, R222). -/
theorem exec_ldVxK_cases (x : RegIx) (s : State) :
    (∃ k, s.lowestReleased = some k ∧ exec (.ldVxK x) s = .next (s.setReg x (BitVec.ofNat 8 k))) ∨
    (s.lowestReleased = none ∧ exec (.ldVxK x) s = .next (s.setPc s.instrAddr)) := by
  simp only [exec, execLdVxK]
  rcases s.lowestReleased with _ | k
  · exact .inr ⟨rfl, rfl⟩
  · exact .inl ⟨k, rfl, rfl⟩

/-- FX33 stores its digits or faults (43_index_memory.md R174). -/
theorem exec_ldB_cases (x : RegIx) (s : State) :
    exec (.ldB x) s = .next { s with mem := s.mem.writeBytes (s.dataAddr 0) (bcdDigits (s.reg x)) } ∨
    exec (.ldB x) s = .fault (.memOutOfRange (s.withFault .memOutOfRange s.instrAddr)) :=
  (le_or_gt (s.i.toNat + 2) 0xFFF).imp execLdB_inside execLdB_outside

/-- FX55 stores its registers or faults (43_index_memory.md R176). -/
theorem exec_storeRegs_cases (x : RegIx) (s : State) :
    exec (.storeRegs x) s =
      .next { s with mem := s.mem.writeBytes (s.dataAddr 0) (s.firstRegs x), i := s.indexAfterBlock x } ∨
    exec (.storeRegs x) s = .fault (.memOutOfRange (s.withFault .memOutOfRange s.instrAddr)) :=
  (le_or_gt (s.i.toNat + x.toNat) 0xFFF).imp execStoreRegs_inside execStoreRegs_outside

/-- FX65 loads its registers or faults (43_index_memory.md R177). -/
theorem exec_loadRegs_cases (x : RegIx) (s : State) :
    exec (.loadRegs x) s =
      .next { s with v := loadBlock s.mem (s.dataAddr 0) (x.toNat + 1) s.v, i := s.indexAfterBlock x } ∨
    exec (.loadRegs x) s = .fault (.memOutOfRange (s.withFault .memOutOfRange s.instrAddr)) :=
  (le_or_gt (s.i.toNat + x.toNat) 0xFFF).imp execLoadRegs_inside execLoadRegs_outside

/-- DXYN draws its sprite or faults (44_display.md R191, R195). -/
theorem exec_drw_cases (x y : RegIx) (n : Nibble) (s : State) :
    exec (.drw x y n) s = .next ({ s with fb := (s.drawn x y n).1 }.setFlag (s.drawn x y n).2) ∨
    exec (.drw x y n) s = .fault (.memOutOfRange (s.withFault .memOutOfRange s.instrAddr)) := by
  by_cases h : 0 < n.toNat ∧ s.i.toNat + n.toNat - 1 > 0xFFF
  · exact .inr (execDrw_outside h)
  · exact .inl (execDrw_inside (by omega))

/-- Every skip that completes leaves PC or moves it past one more word. -/
theorem exec_skip_next {i : Instr} {s t : State} (hi : isSkip i = true) (h : exec i s = .next t) :
    t = s ∨ t = s.setPc (s.pc + 2) := by
  cases i with
  | seImm x nn | sneImm x nn | seReg x y | sneReg x y => exact skipIf_next h
  | skp x => exact withKey_skip_next (c := fun k u => u.keyHeld k) h
  | sknp x => exact withKey_skip_next (c := fun k u => !u.keyHeld k) h
  | _ => cases hi

/-- A faulting instruction changes nothing but what records the fault (60_exceptions.md R233, R235). -/
theorem exec_fault {i : Instr} {s : State} {f : Fault} (h : exec i s = .fault f) :
    f.final = s.withFault f.kind s.instrAddr := by
  cases i with
  | drw x y n => rcases exec_drw_cases x y n s with e | e <;> cases e.symm.trans h; rfl
  | ldB x => rcases exec_ldB_cases x s with e | e <;> cases e.symm.trans h; rfl
  | storeRegs x => rcases exec_storeRegs_cases x s with e | e <;> cases e.symm.trans h; rfl
  | loadRegs x => rcases exec_loadRegs_cases x s with e | e <;> cases e.symm.trans h; rfl
  | skp x => exact withKey_skip_fault (c := fun k u => u.keyHeld k) h
  | sknp x => exact withKey_skip_fault (c := fun k u => !u.keyHeld k) h
  | seImm x nn | sneImm x nn | seReg x y | sneReg x y => cases (skipIf_eq _ s).symm.trans h
  | ret => rcases exec_ret_cases s with ⟨_, e⟩ | ⟨-, e⟩ <;> cases e.symm.trans h
  | call nnn => rcases exec_call_cases nnn s with ⟨-, e⟩ | ⟨-, e⟩ <;> cases e.symm.trans h
  | ldVxK x => rcases exec_ldVxK_cases x s with ⟨k, -, e⟩ | ⟨-, e⟩ <;> cases e.symm.trans h
  | _ => cases h

/-! ### The frame of an instruction -/

/-- The parts of the state an instruction may write when it completes, beyond the fetch's PC advance. -/
def mayWrite (legacy : Bool) (i : Instr) : List Part :=
  match i with
  | .cls => [.fb]
  | .ret => [.pc, .sp, .errlog]
  | .call _ => [.pc, .sp, .stk, .errlog]
  | .jp _ | .jpV0 _ | .seImm _ _ | .sneImm _ _ | .seReg _ _ | .sneReg _ _ | .skp _ | .sknp _ => [.pc]
  | .ldImm _ _ | .addImm _ _ | .ldReg _ _ | .orReg _ _ | .andReg _ _ | .xorReg _ _ | .addReg _ _ | .subReg _ _
  | .shr _ _ | .subnReg _ _ | .shl _ _ | .ldVxDt _ => [.v]
  | .rnd _ _ => [.v, .rand]
  | .ldVxK _ => [.v, .pc]
  | .ldI _ | .ldF _ => [.i]
  | .addI _ => [.v, .i]
  | .drw _ _ _ => [.v, .fb]
  | .ldDtVx _ => [.dt]
  | .ldStVx _ => [.st]
  | .ldB _ => [.mem]
  | .storeRegs _ => .mem :: if legacy then [.i] else []
  | .loadRegs _ => .v :: if legacy then [.i] else []
  | .unmatched _ => []

/-- In modern mode a block transfer leaves the index (43_index_memory.md R175). -/
theorem State.indexAfterBlock_of_modern {s : State} (x : RegIx) (h : s.legacy = false) : s.indexAfterBlock x = s.i := by
  simp [State.indexAfterBlock, h]

/-- Every instruction that completes keeps all parts of the state but those it may write. -/
theorem exec_frame {i : Instr} {s t : State} (h : exec i s = .next t) : KeepsAllBut (mayWrite s.legacy i) s t := by
  cases i with
  | seImm x nn | sneImm x nn | seReg x y | sneReg x y | skp x | sknp x =>
    rcases exec_skip_next rfl h with rfl | rfl <;> constructor <;> simp [mayWrite]
  | ret =>
    rcases exec_ret_cases s with ⟨_, e⟩ | ⟨-, e⟩ <;> cases e.symm.trans h <;> constructor <;>
      simp [mayWrite, State.byteAt]
  | call nnn =>
    rcases exec_call_cases nnn s with ⟨-, e⟩ | ⟨-, e⟩ <;> cases e.symm.trans h <;> constructor <;>
      simp [mayWrite, State.byteAt]
  | ldVxK x =>
    rcases exec_ldVxK_cases x s with ⟨k, -, e⟩ | ⟨-, e⟩ <;> cases e.symm.trans h <;> constructor <;> simp [mayWrite]
  | drw x y n =>
    rcases exec_drw_cases x y n s with e | e <;> cases e.symm.trans h
    constructor <;> simp [mayWrite, State.byteAt]
  | ldB x =>
    rcases exec_ldB_cases x s with e | e <;> cases e.symm.trans h
    constructor <;> simp [mayWrite]
  | storeRegs x =>
    rcases exec_storeRegs_cases x s with e | e <;> cases e.symm.trans h
    constructor <;> simp +contextual [mayWrite, State.indexAfterBlock_of_modern]
  | loadRegs x =>
    rcases exec_loadRegs_cases x s with e | e <;> cases e.symm.trans h
    constructor <;> simp +contextual [mayWrite, State.byteAt, State.indexAfterBlock_of_modern]
  | rnd x nn =>
    cases h
    rw [randByte_state]
    constructor <;> simp [mayWrite, State.byteAt]
  | _ => cases h; constructor <;> simp [mayWrite, State.byteAt]

end Sys2Proof.Machine
end

section
/-! SUPPORT. The step of the machine as its callers see it: what a next state and a fault are made of. -/

namespace Sys2Proof.Machine

/-- A step that completes is the fetched instruction, or it writes at most the timers, the latch and the schedule: nothing after
a fault, else a tick or an input update (10_state.md R39). -/
theorem step_next {s t : State} (h : step s = .next t) :
    (∃ d e k r l, t = { s with dt := d, st := e, held := k, rel := r, schedule := l }) ∨
    (s.pc.toNat ≤ 0xFFE ∧
      exec (decode s.fetchWord) ({ s with schedule := s.schedule.tail }.setPc (s.pc + 2)) = .next t) := by
  rcases step_cases s with ⟨-, e⟩ | ⟨-, -, e⟩ | ⟨-, -, e⟩ | ⟨-, k, r, -, -, e⟩
  · cases e.symm.trans h; exact .inl ⟨_, _, _, _, _, rfl⟩
  · rcases instrStep_cases { s with schedule := s.schedule.tail } with ⟨hpc, e'⟩ | ⟨-, e'⟩
    · exact .inr ⟨hpc, e'.symm.trans (e.symm.trans h)⟩
    · cases (e.trans e').symm.trans h
  · cases e.symm.trans h; exact .inl ⟨_, _, _, _, _, rfl⟩
  · cases e.symm.trans h; exact .inl ⟨_, _, _, _, _, rfl⟩

/-- With nothing scheduled a step that completes is the fetched instruction's. -/
theorem step_next_of_nil {s t : State} (hf : s.fault = none) (hs : s.schedule = []) (h : step s = .next t) :
    s.pc.toNat ≤ 0xFFE ∧ exec (decode s.fetchWord) (s.setPc (s.pc + 2)) = .next t := by
  rw [step_of_nil hf hs] at h
  rcases instrStep_cases s with ⟨hpc, e⟩ | ⟨-, e⟩
  · exact ⟨hpc, e.symm.trans h⟩
  · cases e.symm.trans h

/-- A faulting step leaves the state before it, with the fault recorded at its PC (60_exceptions.md R233). -/
theorem step_fault {s : State} {f : Fault} (h : step s = .fault f) :
    f.final = { s with fault := some ⟨f.kind, s.pc⟩, schedule := s.schedule.tail } := by
  rcases step_cases s with ⟨-, e⟩ | ⟨-, -, e⟩ | ⟨-, -, e⟩ | ⟨-, k, r, -, -, e⟩
  · cases e.symm.trans h
  · rcases instrStep_cases { s with schedule := s.schedule.tail } with ⟨-, e'⟩ | ⟨-, e'⟩
    · rw [exec_fault ((e.trans e').symm.trans h), State.instrAddr_setPc_add]; rfl
    · cases (e.trans e').symm.trans h; rfl
  · cases e.symm.trans h
  · cases e.symm.trans h

/-- PC after a fetch, as a number: a fetch begins at most at 0xFFE (40_cycle.md R101). -/
theorem toNat_add_two {p : Word} (h : p.toNat ≤ 0xFFE) : (p + 2).toNat = p.toNat + 2 := by
  bv_omega

/-- The stack pointer after a push: a push begins above 0 (41_control_flow.md R121). -/
theorem toNat_sub_one {b : Byte} (h : b ≠ 0) : (b - 1).toNat = b.toNat - 1 := by
  bv_omega

/-- The stack pointer after a pop: a pop begins below 16 (41_control_flow.md R122). -/
theorem toNat_add_one {b : Byte} (h : b.toNat < 16) : (b + 1).toNat = b.toNat + 1 := by
  bv_omega

end Sys2Proof.Machine
end

section
/-! SUPPORT. The stack, the error log and PC over all instructions (10_state.md R23 to R29, R36). -/

namespace Sys2Proof.Machine

/-- Only 2NNN and 00EE touch the stack, its pointer or the error log (10_state.md R28, R29; 60_exceptions.md R231). -/
theorem ret_or_call_or_keeps_stack (legacy : Bool) (i : Instr) :
    i = .ret ∨ (∃ nnn, i = .call nnn) ∨
    (Part.sp ∉ mayWrite legacy i ∧ Part.stk ∉ mayWrite legacy i ∧ Part.errlog ∉ mayWrite legacy i) := by
  cases i with
  | ret => exact .inl rfl
  | call nnn => exact .inr (.inl ⟨nnn, rfl⟩)
  | _ => exact .inr (.inr (by simp [mayWrite]))

/-- What an instruction does to the stack: nothing, a push of PC, or a pop. -/
theorem exec_stack_cases {i : Instr} {s t : State} (h : exec i s = .next t) :
    (t.sp = s.sp ∧ t.stk = s.stk) ∨
    (s.sp ≠ 0 ∧ t.sp = s.sp - 1 ∧ t.stk = s.stk.setIfInBounds (s.sp.toNat - 1) s.pc) ∨
    (s.sp.toNat < 16 ∧ t.sp = s.sp + 1 ∧ t.stk = s.stk) := by
  rcases ret_or_call_or_keeps_stack s.legacy i with rfl | ⟨nnn, rfl⟩ | ⟨hsp, hstk, -⟩
  · rcases exec_ret_cases s with ⟨hlt, e⟩ | ⟨-, e⟩ <;> cases e.symm.trans h
    · exact .inr (.inr ⟨hlt, rfl, rfl⟩)
    · exact .inl ⟨rfl, rfl⟩
  · rcases exec_call_cases nnn s with ⟨h0, e⟩ | ⟨-, e⟩ <;> cases e.symm.trans h
    · exact .inr (.inl ⟨h0, rfl, rfl⟩)
    · exact .inl ⟨rfl, rfl⟩
  · exact .inl ⟨(exec_frame h).sp hsp, (exec_frame h).stk hstk⟩

/-- An instruction only appends to the error log (10_state.md R36). -/
theorem exec_errlog_append {i : Instr} {s t : State} (h : exec i s = .next t) : ∃ more, t.errlog = s.errlog ++ more := by
  rcases ret_or_call_or_keeps_stack s.legacy i with rfl | ⟨nnn, rfl⟩ | ⟨-, -, hlog⟩
  · rcases exec_ret_cases s with ⟨_, e⟩ | ⟨-, e⟩ <;> cases e.symm.trans h
    · exact ⟨[], (List.append_nil _).symm⟩
    · exact ⟨_, rfl⟩
  · rcases exec_call_cases nnn s with ⟨-, e⟩ | ⟨-, e⟩ <;> cases e.symm.trans h
    · exact ⟨[], (List.append_nil _).symm⟩
    · exact ⟨_, rfl⟩
  · exact ⟨[], by rw [(exec_frame h).errlog hlog, List.append_nil]⟩

/-- No instruction takes SP out of 0..16 (10_state.md R29). -/
theorem exec_spLegal {i : Instr} {s t : State} (h : exec i s = .next t) (hs : spLegal s) : spLegal t := by
  unfold spLegal at hs ⊢
  rcases exec_stack_cases h with ⟨hsp, -⟩ | ⟨h0, hsp, -⟩ | ⟨hlt, hsp, -⟩
  · rw [hsp]; exact hs
  · rw [hsp, toNat_sub_one h0]; omega
  · rw [hsp, toNat_add_one hlt]; omega

/-- A push of an address at most 0x1000 keeps the entries in use bounded, and so does a pop (10_state.md R25). -/
theorem exec_returnAddressesBounded {i : Instr} {s t : State} (h : exec i s = .next t) (hpc : s.pc.toNat ≤ 0x1000)
    (hs : returnAddressesBounded s) : returnAddressesBounded t := by
  intro j hj hle
  rcases exec_stack_cases h with ⟨hsp, hstk⟩ | ⟨h0, hsp, hstk⟩ | ⟨hlt, hsp, hstk⟩
  · simp only [hstk]
    exact hs j hj (hsp ▸ hle)
  · rw [hsp, toNat_sub_one h0] at hle
    simp only [hstk, Vector.getElem_setIfInBounds]
    split
    · exact hpc
    · exact hs j hj (by omega)
  · rw [hsp, toNat_add_one hlt] at hle
    simp only [hstk]
    exact hs j hj (by omega)

/-- A 12-bit address keeps its value as a word (30_encoding.md R73). -/
theorem toNat_addrWord (nnn : Addr12) : (addrWord nnn).toNat = nnn.toNat := BitVec.toNat_setWidth_of_le (by decide)

/-- The target of BNNN is the exact sum, at most 0x10FE (41_control_flow.md R130). -/
theorem toNat_jumpTarget (nnn : Addr12) (b : Byte) : (addrWord nnn + b.setWidth 16).toNat = nnn.toNat + b.toNat := by
  have := nnn.isLt
  have := b.isLt
  rw [BitVec.toNat_add, toNat_addrWord, BitVec.toNat_setWidth_of_le (by decide)]
  omega

/-- 2NNN with a free entry goes to its target, with none it goes on (41_control_flow.md R125). -/
theorem exec_call_pc {nnn : Addr12} {s t : State} (h : exec (.call nnn) s = .next t) :
    t.pc = if s.sp = 0 then s.pc else addrWord nnn := by
  rcases exec_call_cases nnn s with ⟨h0, e⟩ | ⟨h0, e⟩ <;> cases e.symm.trans h
  · exact (if_neg h0).symm
  · exact (if_pos h0).symm

/-- 00EE with an entry in use goes to the one at SP, with none it goes on (41_control_flow.md R123). -/
theorem exec_ret_pc {s t : State} (h : exec .ret s = .next t) :
    t.pc = if hlt : s.sp.toNat < 16 then s.stk[s.sp.toNat]'hlt else s.pc := by
  rcases exec_ret_cases s with ⟨hlt, e⟩ | ⟨hge, e⟩ <;> cases e.symm.trans h
  · rw [dif_pos hlt]
  · rw [dif_neg (Nat.not_lt.mpr hge)]

/-- FX0A goes on when a key is released, else it goes back to its own address (45_timers_input.md R220, R222). -/
theorem exec_ldVxK_pc {x : RegIx} {s t : State} (h : exec (.ldVxK x) s = .next t) :
    t.pc = if s.lowestReleased = none then s.instrAddr else s.pc := by
  rcases exec_ldVxK_cases x s with ⟨k, hk, e⟩ | ⟨hk, e⟩ <;> cases e.symm.trans h
  · rw [if_neg (by simp [hk]), State.setReg_pc]
  · rw [if_pos hk, State.setPc_pc]

/-- Every instruction but a skip, a transfer that is carried out and FX0A leaves the PC of the fetch (10_state.md R24). -/
theorem exec_keeps_pc {i : Instr} {s t : State} (h : exec i s = .next t) (hskip : isSkip i = false)
    (hwait : ∀ x, i ≠ .ldVxK x) (hjump : ∀ nnn, i ≠ .jp nnn ∧ i ≠ .jpV0 nnn ∧ (i = .call nnn → s.sp = 0))
    (hret : i = .ret → s.sp.toNat ≥ 16) : t.pc = s.pc := by
  cases i with
  | seImm x nn | sneImm x nn | seReg x y | sneReg x y | skp x | sknp x => cases hskip
  | ldVxK x => exact absurd rfl (hwait x)
  | jp nnn => exact absurd rfl (hjump nnn).1
  | jpV0 nnn => exact absurd rfl (hjump nnn).2.1
  | call nnn => exact (exec_call_pc h).trans (if_pos ((hjump nnn).2.2 rfl))
  | ret => exact (exec_ret_pc h).trans (dif_neg (Nat.not_lt.mpr (hret rfl)))
  | _ => exact (exec_frame h).pc (by simp [mayWrite])

/-- No key is found exactly when none of the 16 is released (45_timers_input.md R221). -/
theorem State.lowestReleased_eq_none_iff (s : State) :
    s.lowestReleased = none ↔ ¬ ∃ k, k < 16 ∧ s.keyReleased k = true := by
  simp [State.lowestReleased]

/-- From a PC the fetch leaves, no instruction takes PC above 0x10FE (10_state.md R25). -/
theorem exec_pc_le {i : Instr} {s t : State} (h : exec i s = .next t) (hlo : 2 ≤ s.pc.toNat) (hhi : s.pc.toNat ≤ 0x1000)
    (hs : returnAddressesBounded s) : t.pc.toNat ≤ 0x10FE := by
  cases i with
  | seImm x nn | sneImm x nn | seReg x y | sneReg x y | skp x | sknp x =>
    rcases exec_skip_next rfl h with rfl | rfl
    · omega
    · rw [State.setPc_pc]; bv_omega
  | jp nnn =>
    cases h
    have := nnn.isLt
    rw [State.setPc_pc, toNat_addrWord]; omega
  | jpV0 nnn =>
    cases h
    have := nnn.isLt
    have := (s.reg (s.jumpReg nnn)).isLt
    rw [State.setPc_pc, State.regWord, toNat_jumpTarget]; omega
  | call nnn =>
    have := nnn.isLt
    rw [exec_call_pc h]
    split
    · omega
    · rw [toNat_addrWord]; omega
  | ret =>
    rw [exec_ret_pc h]
    split
    · next hlt => exact (hs _ hlt (Nat.le_refl _)).trans (by decide)
    · omega
  | ldVxK x =>
    rw [exec_ldVxK_pc h]
    split
    · rw [State.instrAddr]; bv_omega
    · omega
  | _ => rw [(exec_frame h).pc (by simp [mayWrite])]; omega

end Sys2Proof.Machine
end

section
/-! The invariants and the frames of 10_state.md. -/

namespace Sys2Proof.Machine

/-- Settles O19: a push needs SP above 0, a pop SP below 16, and nothing else writes SP. -/
theorem stepKeepsStackPointerLegal : Obligations.StepKeepsStackPointerLegal := by
  intro s hs
  refine ⟨fun t h => ?_, fun f h => ?_⟩
  · rcases step_next h with ⟨_, _, _, _, _, rfl⟩ | ⟨-, h⟩
    · exact hs
    · exact exec_spLegal h hs
  · rw [step_fault h]; exact hs

/-- Settles O20: only an address left by a fetch is pushed, and every target of a transfer is bounded. -/
theorem stepKeepsPcBounded : Obligations.StepKeepsPcBounded := by
  rintro s ⟨hpc, hstk⟩
  refine ⟨fun t h => ?_, fun f h => ?_⟩
  · rcases step_next h with ⟨_, _, _, _, _, rfl⟩ | ⟨hle, h⟩
    · exact ⟨hpc, hstk⟩
    · have hfetched : ({ s with schedule := s.schedule.tail }.setPc (s.pc + 2)).pc.toNat = s.pc.toNat + 2 :=
        toNat_add_two hle
      exact ⟨exec_pc_le h (by omega) (by omega) hstk, exec_returnAddressesBounded h (by omega) hstk⟩
  · rw [step_fault h]; exact ⟨hpc, hstk⟩

/-- Settles O17: only a stack error writes the log, by appending its event. -/
theorem errlogIsAppendOnly : Obligations.ErrlogIsAppendOnly := by
  intro s t h
  rcases step_next h with ⟨_, _, _, _, _, rfl⟩ | ⟨-, h⟩
  · exact ⟨[], (List.append_nil _).symm⟩
  · obtain ⟨more, e⟩ := exec_errlog_append h
    exact ⟨more, e⟩

end Sys2Proof.Machine
end

section
/-! The registers, the other units, PC, the schedule and reset, over all instructions (10_state.md). -/

namespace Sys2Proof.Machine

/-- A flag writer leaves a flag byte in VF, also when VF is its destination (10_state.md R21, R22). -/
theorem exec_flagByte {i : Instr} {s t : State} (hi : writesFlag i = true) (h : exec i s = .next t) :
    ∃ f, t.reg 0xF = flagByte f := by
  cases i with
  | addReg x y | subReg x y | shr x y | subnReg x y | shl x y =>
    cases h; exact ⟨_, (State.reg_setResult ..).trans (if_pos rfl)⟩
  | addI x => cases h; exact ⟨_, (State.reg_setFlag ..).trans (if_pos rfl)⟩
  | drw x y n =>
    rcases exec_drw_cases x y n s with e | e <;> cases e.symm.trans h
    exact ⟨_, (State.reg_setFlag ..).trans (if_pos rfl)⟩
  | _ => cases hi

/-- A register that is neither a named destination nor a flag written is kept (10_state.md R20, R21). -/
theorem exec_keeps_reg {i : Instr} {s t : State} {r : RegIx} (h : exec i s = .next t) (hdest : namesDest i r = false)
    (hflag : writesFlag i = true → r ≠ flagIx) : t.reg r = s.reg r := by
  cases i with
  | ldImm x nn | addImm x nn | ldReg x y | orReg x y | andReg x y | xorReg x y | ldVxDt x =>
    cases h; exact State.reg_setReg_of_ne _ _ (by simpa [namesDest] using hdest)
  | rnd x nn =>
    cases h
    rw [State.reg_setReg_of_ne _ _ (by simpa [namesDest] using hdest), randByte_state]; rfl
  | ldVxK x =>
    rcases exec_ldVxK_cases x s with ⟨k, -, e⟩ | ⟨-, e⟩ <;> cases e.symm.trans h
    · exact State.reg_setReg_of_ne _ _ (by simpa [namesDest] using hdest)
    · rfl
  | addReg x y | subReg x y | shr x y | subnReg x y | shl x y =>
    cases h
    rw [State.reg_setResult, if_neg (hflag rfl), if_neg (by simpa [namesDest] using hdest)]
  | addI x => cases h; rw [State.reg_setFlag, if_neg (hflag rfl), State.reg_setI]
  | drw x y n =>
    rcases exec_drw_cases x y n s with e | e <;> cases e.symm.trans h
    rw [State.reg_setFlag, if_neg (hflag rfl)]; rfl
  | loadRegs x =>
    rcases exec_loadRegs_cases x s with e | e <;> cases e.symm.trans h
    have hr : x.toNat < r.toNat := by simpa [namesDest] using hdest
    exact (loadBlock_getElem _ _ _ _ _ r.isLt).trans (if_neg (by omega))
  | _ => exact State.reg_congr ((exec_frame h).v (by simp [mayWrite])) r

/-- Settles O24: by what each flag writer leaves in VF and what every instruction keeps of the registers. -/
theorem registerAndFlagWriters : Obligations.RegisterAndFlagWriters := by
  intro i s t h
  refine ⟨fun hi => ?_, fun hi hdest => ?_, fun r hr hdest => ?_⟩
  · obtain ⟨f, hf⟩ := exec_flagByte hi h
    cases f
    · exact .inl hf
    · exact .inr hf
  · exact exec_keeps_reg h hdest (by simp [hi])
  · exact exec_keeps_reg h hdest fun _ => hr

section
variable {legacy : Bool} {i : Instr}

theorem mem_not_mem_mayWrite (hi : ∀ x, i ≠ .ldB x ∧ i ≠ .storeRegs x) : Part.mem ∉ mayWrite legacy i := by
  cases i with
  | ldB x => exact absurd rfl (hi x).1
  | storeRegs x => exact absurd rfl (hi x).2
  | _ => simp [mayWrite]

theorem fb_not_mem_mayWrite (hcls : i ≠ .cls) (hdrw : ∀ x y n, i ≠ .drw x y n) : Part.fb ∉ mayWrite legacy i := by
  cases i with
  | cls => exact absurd rfl hcls
  | drw x y n => exact absurd rfl (hdrw x y n)
  | _ => simp [mayWrite]

theorem stk_not_mem_mayWrite (hcall : ∀ nnn, i ≠ .call nnn) : Part.stk ∉ mayWrite legacy i := by
  cases i with
  | call nnn => exact absurd rfl (hcall nnn)
  | _ => simp [mayWrite]

theorem sp_not_mem_mayWrite (hcall : ∀ nnn, i ≠ .call nnn) (hret : i ≠ .ret) : Part.sp ∉ mayWrite legacy i := by
  cases i with
  | call nnn => exact absurd rfl (hcall nnn)
  | ret => exact absurd rfl hret
  | _ => simp [mayWrite]

theorem dt_not_mem_mayWrite (hi : ∀ x, i ≠ .ldDtVx x) : Part.dt ∉ mayWrite legacy i := by
  cases i with
  | ldDtVx x => exact absurd rfl (hi x)
  | _ => simp [mayWrite]

theorem st_not_mem_mayWrite (hi : ∀ x, i ≠ .ldStVx x) : Part.st ∉ mayWrite legacy i := by
  cases i with
  | ldStVx x => exact absurd rfl (hi x)
  | _ => simp [mayWrite]

/-- The index is written by ANNN, FX1E, FX29 and, in legacy mode only, by the block transfers (10_state.md R27). -/
theorem i_not_mem_mayWrite (hld : ∀ nnn, i ≠ .ldI nnn) (hx : ∀ x, i ≠ .addI x ∧ i ≠ .ldF x)
    (hblock : legacy = true → ∀ x, i ≠ .storeRegs x ∧ i ≠ .loadRegs x) : Part.i ∉ mayWrite legacy i := by
  cases i with
  | ldI nnn => exact absurd rfl (hld nnn)
  | addI x => exact absurd rfl (hx x).1
  | ldF x => exact absurd rfl (hx x).2
  | storeRegs x => simpa [mayWrite] using fun hl => (hblock hl x).1 rfl
  | loadRegs x => simpa [mayWrite] using fun hl => (hblock hl x).2 rfl
  | _ => simp [mayWrite]

/-- The latch, the fault register, the configuration and the schedule are no instruction's (10_state.md R33 to R35). -/
theorem environment_not_mem_mayWrite : Part.held ∉ mayWrite legacy i ∧ Part.rel ∉ mayWrite legacy i ∧
    Part.fault ∉ mayWrite legacy i ∧ Part.legacy ∉ mayWrite legacy i ∧ Part.schedule ∉ mayWrite legacy i := by
  cases i <;> simp [mayWrite]

end

/-- Settles O25: each clause is the frame of an instruction and the list of the parts it may write. -/
theorem unitsWrittenOnlyByTheirInstructions : Obligations.UnitsWrittenOnlyByTheirInstructions := by
  intro i s t h
  have hframe := exec_frame h
  obtain ⟨hheld, hrel, hfault, hlegacy, hschedule⟩ := environment_not_mem_mayWrite (legacy := s.legacy) (i := i)
  exact ⟨fun hi => hframe.mem (mem_not_mem_mayWrite hi),
    fun hcls hdrw => hframe.fb (fb_not_mem_mayWrite hcls hdrw),
    fun hcall => hframe.stk (stk_not_mem_mayWrite hcall),
    fun hcall hret => hframe.sp (sp_not_mem_mayWrite hcall hret),
    fun hi => hframe.dt (dt_not_mem_mayWrite hi),
    fun hi => hframe.st (st_not_mem_mayWrite hi),
    fun hld hx hblock => hframe.i (i_not_mem_mayWrite hld hx hblock),
    hframe.held hheld, hframe.rel hrel, hframe.fault hfault, hframe.legacy hlegacy, hframe.schedule hschedule⟩

/-- Settles O13: a scheduled tick or input update writes its own fields only. -/
theorem scheduledTransactionIsTheStep : Obligations.ScheduledTransactionIsTheStep := by
  intro s rest hf
  refine ⟨fun hs => ?_, fun h k hs => ?_⟩
  · refine ⟨_, step_of_tick hf hs, toNat_countDown s.dt, toNat_countDown s.st, rfl, ?_⟩
    constructor <;> simp [State.byteAt]
  · refine ⟨_, step_of_inputUpdate hf hs, rfl, rfl, rfl, ?_⟩
    constructor <;> simp [State.byteAt]

/-- Settles O21: no cell is listed, no stack entry is in use, and PC is `PROG_BASE` (10_state.md R40). -/
theorem resetMeetsInvariants : Obligations.ResetMeetsInvariants where
  memWf := ⟨List.Pairwise.nil, nofun⟩
  spLegal := Nat.le_refl 16
  pcBounded := ⟨by decide, fun _ hj hle => absurd (hle.trans_lt hj) (Nat.lt_irrefl 16)⟩

/-- Settles O11: every clause is what the instruction leaves in PC, from the PC + 2 the fetch left. -/
theorem pcAfterInstruction : Obligations.PcAfterInstruction := by
  rintro i s t hf hs rfl h
  obtain ⟨hle, h⟩ := step_next_of_nil hf hs h
  have hpc := toNat_add_two hle
  refine ⟨fun hi => ?skip, fun x hi => ?wait, fun nnn hi => ?jump, fun nnn hi => ?jumpOffset, fun hlt hi => ?ret,
    fun hskip hwait hjump hret => ?other⟩
  case skip =>
    rcases exec_skip_next hi h with rfl | rfl
    · exact .inl hpc
    · right
      rw [State.setPc_pc, State.setPc_pc]; bv_omega
  case wait =>
    rw [hi] at h
    rw [exec_ldVxK_pc h]
    have hnone := State.lowestReleased_eq_none_iff (s.setPc (s.pc + 2))
    by_cases hk : ∃ k, k < 16 ∧ s.keyReleased k = true
    · rw [if_pos hk, if_neg fun e => hnone.mp e hk]; exact hpc
    · rw [if_neg hk, if_pos (hnone.mpr hk), State.instrAddr_setPc_add]
  case jump =>
    rw [← toNat_addrWord]
    rcases hi with hi | ⟨hi, h0⟩ <;> rw [hi] at h
    · cases h; rfl
    · rw [exec_call_pc h]
      exact congrArg _ (if_neg h0)
  case jumpOffset =>
    rw [hi] at h
    cases h
    exact toNat_jumpTarget ..
  case ret =>
    rw [hi] at h
    exact (exec_ret_pc h).trans (dif_pos hlt)
  case other => rw [exec_keeps_pc h hskip hwait hjump hret, State.setPc_pc, hpc]

end Sys2Proof.Machine
end

section
/-! SUPPORT. Memory over all instructions, the cells of a canonical memory, and the bytes of a block store (20_memory.md). -/

namespace Sys2Proof.Machine

/-- An instruction leaves memory or writes one block of bytes: its digits, FX33, or its registers, FX55 (20_memory.md R53). -/
theorem exec_mem_cases {i : Instr} {s t : State} (h : exec i s = .next t) :
    t.mem = s.mem ∨ ∃ a bs, t.mem = s.mem.writeBytes a bs := by
  cases i with
  | ldB x => rcases exec_ldB_cases x s with e | e <;> cases e.symm.trans h; exact .inr ⟨_, _, rfl⟩
  | storeRegs x => rcases exec_storeRegs_cases x s with e | e <;> cases e.symm.trans h; exact .inr ⟨_, _, rfl⟩
  | loadRegs x => rcases exec_loadRegs_cases x s with e | e <;> cases e.symm.trans h; exact .inl rfl
  | drw x y n => rcases exec_drw_cases x y n s with e | e <;> cases e.symm.trans h; exact .inl rfl
  | seImm x nn | sneImm x nn | seReg x y | sneReg x y | skp x | sknp x =>
    rcases exec_skip_next rfl h with rfl | rfl <;> exact .inl rfl
  | ret => rcases exec_ret_cases s with ⟨_, e⟩ | ⟨-, e⟩ <;> cases e.symm.trans h <;> exact .inl rfl
  | call nnn => rcases exec_call_cases nnn s with ⟨-, e⟩ | ⟨-, e⟩ <;> cases e.symm.trans h <;> exact .inl rfl
  | ldVxK x => rcases exec_ldVxK_cases x s with ⟨k, -, e⟩ | ⟨-, e⟩ <;> cases e.symm.trans h <;> exact .inl rfl
  | rnd x nn => cases h; rw [randByte_state]; exact .inl rfl
  | _ => cases h; exact .inl rfl

/-- No instruction takes memory out of its canonical form. -/
theorem exec_memWf {i : Instr} {s t : State} (h : exec i s = .next t) (hs : s.mem.wf) : t.mem.wf := by
  rcases exec_mem_cases h with e | ⟨a, bs, e⟩ <;> rw [e]
  · exact hs
  · exact Memory.wf_writeBytes bs hs a

/-- A canonical memory lists exactly the bytes that read otherwise than their addresses do when unlisted. -/
theorem Memory.mem_iff_of_wf {m : Memory} (hm : m.wf) (a : Nat) (v : Byte) :
    (a, v) ∈ m ↔ a ≤ 0xFFF ∧ v ≠ Memory.unlisted a ∧ m.read a = v := by
  obtain ⟨hrise, hcell⟩ := hm
  constructor
  · intro h
    obtain ⟨ha, hv⟩ := hcell _ h
    exact ⟨ha, hv, Memory.read_of_mem hrise h⟩
  · rintro ⟨-, hv, rfl⟩
    by_contra hout
    refine hv (Memory.read_of_not_mem ?_)
    rintro ⟨b, w⟩ hc rfl
    rw [Memory.read_of_mem hrise hc] at hout
    exact hout hc

/-- After a block store the byte at `I + k` is register k (43_index_memory.md R176). -/
theorem read_storeBlock_of_le {s : State} {x k : RegIx} (h : s.i.toNat + x.toNat ≤ 0xFFF) (hk : k.toNat ≤ x.toNat) :
    (s.mem.writeBytes (s.dataAddr 0) (s.firstRegs x)).read (s.i.toNat + k.toNat) = s.reg k := by
  rw [read_storeBlock h, if_pos (by omega), Nat.add_sub_cancel_left, BitVec.ofNat_toNat, BitVec.setWidth_eq]

end Sys2Proof.Machine
end

section
/-! The canonical form of memory, and the bytes a fetch reads (20_memory.md). -/

namespace Sys2Proof.Machine

/-- Settles O18: every write of an instruction is a block write, and a fault leaves the memory before the step. -/
theorem stepKeepsMemoryCanonical : Obligations.StepKeepsMemoryCanonical := by
  intro s hs
  refine ⟨fun t h => ?_, fun f h => ?_⟩
  · rcases step_next h with ⟨_, _, _, _, _, rfl⟩ | ⟨-, h⟩
    · exact hs
    · exact exec_memWf h hs
  · rw [step_fault h]; exact hs

/-- Settles O48: the bytes read settle which cells are listed, and their addresses in which order. -/
theorem canonicalMemoryIsUnique : Obligations.CanonicalMemoryIsUnique := by
  intro m k hm hk hread
  have : Std.Irrefl fun p q : Host.Cell => p.1 < q.1 := ⟨fun _ => Nat.lt_irrefl _⟩
  have : Std.Antisymm fun p q : Host.Cell => p.1 < q.1 := ⟨fun _ _ h h' => absurd h' (Nat.lt_asymm h)⟩
  refine hm.1.eq_of_mem_iff hk.1 fun ⟨a, v⟩ => ?_
  rw [Memory.mem_iff_of_wf hm, Memory.mem_iff_of_wf hk]
  exact and_congr_right fun ha => by rw [hread a ha]

/-- Settles O47: the fetch reads the two bytes of the block and puts the first one high. -/
theorem storedBytesAreFetched : Obligations.StoredBytesAreFetched := by
  intro x s h
  refine ⟨_, execStoreRegs_inside h, fun q k l hq hl hle => ?_⟩
  have hhi := read_storeBlock_of_le (k := k) h (by omega)
  have hlo := read_storeBlock_of_le h hle
  rw [hl, ← Nat.add_assoc] at hlo
  simp only [State.fetchWord, State.byteAt, toNat_wordOfBytes, hq, hhi, hlo]

end Sys2Proof.Machine
end

section
/-! SUPPORT. A word from its fields, the unmatched words class by class, and what the decoder reads from a word
(30_encoding.md R72 to R76). -/

namespace Sys2Proof

/-! ### A word from its fields (R72) -/
section
variable {w : Word} {c n : BitVec 4} {nn : Byte}

theorem formatA_fields (hc : (fieldClass w).toNat = c.toNat) : formatA c (fieldNNN w) = w := by
  apply BitVec.eq_of_toNat_eq
  rw [toNat_fieldClass] at hc
  rw [toNat_formatA, toNat_fieldNNN]
  omega

theorem formatRI_fields (hc : (fieldClass w).toNat = c.toNat) (hn : fieldNN w = nn) :
    formatRI c (fieldX w) nn = w := by
  subst hn
  apply BitVec.eq_of_toNat_eq
  rw [toNat_fieldClass] at hc
  rw [toNat_formatRI, toNat_fieldX, toNat_fieldNN]
  omega

theorem formatRR_fields (hc : (fieldClass w).toNat = c.toNat) (hn : (fieldN w).toNat = n.toNat) :
    formatRR c (fieldX w) (fieldY w) n = w := by
  apply BitVec.eq_of_toNat_eq
  rw [toNat_fieldClass] at hc
  rw [toNat_fieldN] at hn
  rw [toNat_formatRR, toNat_fieldX, toNat_fieldY]
  omega
end

/-! ### The unmatched words, class by class (R76) -/
section
variable {w : Word}

theorem isUnmatchedWord_class0 (hc : (fieldClass w).toNat = 0x0) :
    isUnmatchedWord w = true ↔ w ≠ 0x00E0 ∧ w ≠ 0x00EE := by
  simp [isUnmatchedWord, ← toNat_fieldClass, hc, BitVec.toNat_eq]

theorem isUnmatchedWord_class5_class9 (hc : (fieldClass w).toNat = 0x5 ∨ (fieldClass w).toNat = 0x9) :
    isUnmatchedWord w = true ↔ fieldN w ≠ 0x0 := by
  rcases hc with hc | hc <;> simp [isUnmatchedWord, ← toNat_fieldClass, ← toNat_fieldN, hc, BitVec.toNat_eq]

theorem isUnmatchedWord_class8 (hc : (fieldClass w).toNat = 0x8) :
    isUnmatchedWord w = true ↔ 0x7 < (fieldN w).toNat ∧ (fieldN w).toNat ≠ 0xE := by
  have := (fieldN w).isLt
  simp [isUnmatchedWord, ← toNat_fieldClass, ← toNat_fieldN, hc]
  omega

theorem isUnmatchedWord_classE (hc : (fieldClass w).toNat = 0xE) :
    isUnmatchedWord w = true ↔ fieldNN w ∉ [0x9E, 0xA1] := by
  simp [isUnmatchedWord, ← toNat_fieldClass, ← toNat_fieldNN, hc, BitVec.toNat_eq]

theorem isUnmatchedWord_classF (hc : (fieldClass w).toNat = 0xF) :
    isUnmatchedWord w = true ↔ fieldNN w ∉ [0x07, 0x0A, 0x15, 0x18, 0x1E, 0x29, 0x33, 0x55, 0x65] := by
  simp [isUnmatchedWord, ← toNat_fieldClass, ← toNat_fieldNN, hc, BitVec.toNat_eq, and_assoc]

/-- Every word of the other ten classes is some row's. -/
theorem isUnmatchedWord_otherClass (hc : (fieldClass w).toNat ∉ [0x0, 0x5, 0x8, 0x9, 0xE, 0xF]) :
    ¬ isUnmatchedWord w = true := by
  simp_all [isUnmatchedWord, ← toNat_fieldClass]

/-! ### What the decoder reads -/

/-- The word of `i` is `w`, and `i` is the unmatched instruction exactly when R76 lists `w`: what the decoder owes of `w`. -/
def Reads (w : Word) (i : Instr) : Prop := encode i = w ∧ (i = .unmatched w ↔ isUnmatchedWord w = true)

theorem Reads.of_unmatched (hw : isUnmatchedWord w = true) : Reads w (.unmatched w) := ⟨rfl, iff_of_true rfl hw⟩

theorem Reads.of_row {i : Instr} (hi : i ≠ .unmatched w) (hw : ¬ isUnmatchedWord w = true) (he : encode i = w) :
    Reads w i := ⟨he, iff_of_false hi hw⟩

theorem Reads.wellFormed {i : Instr} (h : Reads w i) : i.wellFormed = true := by
  obtain ⟨rfl, hun⟩ := h
  cases i with
  | unmatched u => exact hun.mp rfl
  | _ => rfl

theorem decodeClass0_reads (hc : (fieldClass w).toNat = 0x0) : Reads w (decodeClass0 w) := by
  have hw := isUnmatchedWord_class0 hc
  unfold decodeClass0
  split
  · next h => exact .of_row nofun (fun hu => (hw.mp hu).1 h) h.symm
  split
  · next h => exact .of_row nofun (fun hu => (hw.mp hu).2 h) h.symm
  · exact .of_unmatched (hw.mpr ⟨‹_›, ‹_›⟩)

theorem decodeClass8_reads (hc : (fieldClass w).toNat = 0x8) : Reads w (decodeClass8 w) := by
  have hw := isUnmatchedWord_class8 hc
  unfold decodeClass8
  split
  case h_10 =>
    simp only [imp_false] at *
    exact .of_unmatched (hw.mpr (by omega))
  all_goals next hn => exact .of_row nofun (by simp [hw, hn]) (formatRR_fields hc hn)

theorem decodeClassE_reads (hc : (fieldClass w).toNat = 0xE) : Reads w (decodeClassE w) := by
  have hw := isUnmatchedWord_classE hc
  unfold decodeClassE
  repeat'
    split
    · next hn => exact .of_row nofun (by simp [hw, hn]) (formatRI_fields hc hn)
  exact .of_unmatched (by simp_all)

theorem decodeClassF_reads (hc : (fieldClass w).toNat = 0xF) : Reads w (decodeClassF w) := by
  have hw := isUnmatchedWord_classF hc
  unfold decodeClassF
  repeat'
    split
    · next hn => exact .of_row nofun (by simp [hw, hn]) (formatRI_fields hc hn)
  exact .of_unmatched (by simp_all)

/-- Every word: class by class, each row's word is put together again from the fields it was cut into. -/
theorem decode_reads (w : Word) : Reads w (decode w) := by
  have hlt := (fieldClass w).isLt
  have hother := isUnmatchedWord_otherClass (w := w)
  unfold decode
  split
  case h_1 hc => exact decodeClass0_reads hc
  case h_6 hc | h_10 hc =>
    have hw := isUnmatchedWord_class5_class9 (w := w) (by simp [hc])
    split
    · next hn => exact .of_row nofun (fun hu => hw.mp hu hn) (formatRR_fields hc (congrArg _ hn))
    · next hn => exact .of_unmatched (hw.mpr hn)
  case h_9 hc => exact decodeClass8_reads hc
  case h_15 hc => exact decodeClassE_reads hc
  case h_16 hc => exact decodeClassF_reads hc
  case h_17 =>
    simp only [imp_false] at *
    omega
  case h_2 hc | h_3 hc | h_11 hc | h_12 hc => exact .of_row nofun (hother (by simp [hc])) (formatA_fields hc)
  case h_4 hc | h_5 hc | h_7 hc | h_8 hc | h_13 hc => exact .of_row nofun (hother (by simp [hc])) (formatRI_fields hc rfl)
  case h_14 hc => exact .of_row nofun (hother (by simp [hc])) (formatRR_fields hc rfl)

end

/-- From the two bytes of a word, most significant first, the decoder reads that word (R70; 20_memory.md R56). -/
theorem decodeBytes_bytesOfWord (w : Word) (rest : List Byte) :
    decodeBytes (bytesOfWord w ++ rest) = .ok (decode w, rest) := by
  simp [bytesOfWord, decodeBytes]

/-- Decoding the word of a well-formed instruction gives the instruction back (R74, R76). -/
theorem decode_encode {i : Instr} (hi : i.wellFormed = true) : decode (encode i) = i := by
  cases i with
  | unmatched w => exact (decode_reads w).2.mpr hi
  | cls | ret => decide
  | jp nnn | call nnn | ldI nnn | jpV0 nnn => simp [encode, decode]
  | seImm x nn | sneImm x nn | ldImm x nn | addImm x nn | rnd x nn => simp [encode, decode]
  | seReg x y | sneReg x y | drw x y n => simp [encode, decode]
  | ldReg x y | orReg x y | andReg x y | xorReg x y | addReg x y | subReg x y | shr x y | subnReg x y | shl x y =>
    simp [encode, decode, decodeClass8]
  | skp x | sknp x => simp [encode, decode, decodeClassE]
  | _ => simp [encode, decode, decodeClassF]

end Sys2Proof
end

section
/-! The encoding and the decoder (30_encoding.md). -/

namespace Sys2Proof

/-- Settles O1: the two bytes make the word again, and the decoder reads the instruction back from its word. -/
theorem decodeEncodeRoundTrip : Obligations.DecodeEncodeRoundTrip := by
  intro i rest hi
  rw [encodeBytes, decodeBytes_bytesOfWord, decode_encode hi]

/-- Settles O2: each row's word is put together again from the fields the decoder cut it into. -/
theorem encodeDecodeRoundTrip : Obligations.EncodeDecodeRoundTrip := fun w => (decode_reads w).1

/-- Settles O4: the decoder's tests in each class are those of R76's space there. -/
theorem unmatchedWordsExactly : Obligations.UnmatchedWordsExactly :=
  fun w => ⟨(decode_reads w).2, (decode_reads w).wellFormed⟩

/-- Settles O5: by evaluating the decoder on the eight words. -/
theorem sampleWordsDecode : Obligations.SampleWordsDecode := by
  unfold Obligations.SampleWordsDecode
  decide

end Sys2Proof
end

section
/-! SUPPORT. The rows of the opcode map against the decoder: the fixed bits of a row settle the mnemonic, and the word of an
instruction holds its operands (30_encoding.md R72 to R76). -/

namespace Sys2Proof

/-! ### The operands of a word -/
section
variable (c : BitVec 4) (x y : RegIx) (n : Nibble) (nn : Byte) (nnn : Addr12)

theorem formatA_operand : nnn.toNat = (formatA c nnn).toNat % 0x1000 := by
  rw [← toNat_fieldNNN, fieldNNN_formatA]

theorem formatRI_operands :
    x.toNat = (formatRI c x nn).toNat / 0x100 % 0x10 ∧ nn.toNat = (formatRI c x nn).toNat % 0x100 := by
  rw [← toNat_fieldX, ← toNat_fieldNN, fieldX_formatRI, fieldNN_formatRI]
  exact ⟨rfl, rfl⟩

theorem formatRR_registers :
    x.toNat = (formatRR c x y n).toNat / 0x100 % 0x10 ∧ y.toNat = (formatRR c x y n).toNat / 0x10 % 0x10 := by
  rw [← toNat_fieldX, ← toNat_fieldY, fieldX_formatRR, fieldY_formatRR]
  exact ⟨rfl, rfl⟩

theorem formatRR_nibble : n.toNat = (formatRR c x y n).toNat % 0x10 := by
  rw [← toNat_fieldN, fieldN_formatRR]
end

/-- The operands of an instruction are the fields of its word (R72). -/
theorem fieldsFrom_encode (i : Instr) : Machine.fieldsFrom (encode i) i := by
  cases i with
  | cls | ret => trivial
  | unmatched w => rfl
  | jp nnn | call nnn | ldI nnn | jpV0 nnn => exact formatA_operand _ _
  | seImm x nn | sneImm x nn | ldImm x nn | addImm x nn | rnd x nn => exact formatRI_operands _ _ _
  | drw x y n => exact ⟨(formatRR_registers _ _ _ _).1, (formatRR_registers _ _ _ _).2, formatRR_nibble _ _ _ _⟩
  | seReg x y | ldReg x y | orReg x y | andReg x y | xorReg x y | addReg x y | subReg x y | shr x y | subnReg x y
  | shl x y | sneReg x y => exact formatRR_registers _ _ _ _
  | _ => exact (formatRI_operands _ _ _).1

/-! ### The fields a masked word keeps -/
section
variable (w m : Word)

theorem fieldClass_and : fieldClass (w &&& m) = fieldClass w &&& fieldClass m := BitVec.extractLsb'_and
theorem fieldN_and : fieldN (w &&& m) = fieldN w &&& fieldN m := BitVec.extractLsb'_and
theorem fieldNN_and : fieldNN (w &&& m) = fieldNN w &&& fieldNN m := BitVec.extractLsb'_and
end

/-- Two words decode to the same mnemonic when they agree on what their class tests: the whole word in class 0, the low nibble
in 5, 8 and 9, the low byte in E and F, and nothing in the other classes (R75). -/
theorem mnemonic_decode_congr {w u : Word} (hclass : fieldClass w = fieldClass u)
    (hword : fieldClass u = 0x0 → w = u)
    (hnibble : fieldClass u ∈ [0x5#4, 0x8, 0x9] → fieldN w = fieldN u)
    (hbyte : fieldClass u ∈ [0xE#4, 0xF] → fieldNN w = fieldNN u) :
    (decode w).mnemonic = (decode u).mnemonic := by
  unfold decode
  rw [hclass]
  split
  case h_1 hc => rw [hword (BitVec.eq_of_toNat_eq hc)]
  case h_6 hc | h_10 hc =>
    rw [hnibble (by simp [BitVec.toNat_eq, hc])]
    split <;> rfl
  case h_9 hc =>
    unfold decodeClass8
    rw [hnibble (by simp [BitVec.toNat_eq, hc])]
    split <;> rfl
  case h_15 hc =>
    simp only [decodeClassE, hbyte (by simp [BitVec.toNat_eq, hc]), apply_ite Instr.mnemonic]
    rfl
  case h_16 hc =>
    simp only [decodeClassF, hbyte (by simp [BitVec.toNat_eq, hc]), apply_ite Instr.mnemonic]
    rfl
  all_goals rfl

/-- The mask of a row covers what the decoder tests in the row's class (R74). -/
theorem opcodeRows_masks : ∀ r ∈ opcodeRows, fieldClass r.mask = BitVec.allOnes 4 ∧
    (fieldClass r.value = 0x0 → r.mask = BitVec.allOnes 16) ∧
    (fieldClass r.value ∈ [0x5#4, 0x8, 0x9] → fieldN r.mask = BitVec.allOnes 4) ∧
    (fieldClass r.value ∈ [0xE#4, 0xF] → fieldNN r.mask = BitVec.allOnes 8) := by decide

/-- The fixed bits of a row, with every operand 0, decode to the row's instruction (R74). -/
theorem mnemonic_decode_value : ∀ r ∈ opcodeRows, (decode r.value).mnemonic = r.mnemonic := by decide

/-- A word that a row selects decodes to that row's mnemonic (40_cycle.md R102). -/
theorem mnemonic_decode_of_selected {w : Word} {r : OpcodeRow} (hr : r ∈ opcodeRows) (h : w &&& r.mask = r.value) :
    (decode w).mnemonic = r.mnemonic := by
  obtain ⟨hclass, hword, hnibble, hbyte⟩ := opcodeRows_masks r hr
  rw [← mnemonic_decode_value r hr]
  refine mnemonic_decode_congr ?_ (fun hc => ?_) (fun hc => ?_) (fun hc => ?_)
  · rw [← h, fieldClass_and, hclass, BitVec.and_allOnes]
  · rw [← h, hword hc, BitVec.and_allOnes]
  · rw [← h, fieldN_and, hnibble hc, BitVec.and_allOnes]
  · rw [← h, fieldNN_and, hbyte hc, BitVec.and_allOnes]

/-- The word of every instruction has the fixed bits of the instruction's row (R74). -/
theorem rowSelected (i : Instr) : Laws.RowSelected.Statement i := by
  open Laws.RowSelected in
  cases i
  exacts [cls, ret, jp _, call _, seImm _ _, sneImm _ _, seReg _ _, ldImm _ _, addImm _ _, ldReg _ _, orReg _ _,
    andReg _ _, xorReg _ _, addReg _ _, subReg _ _, shr _ _, subnReg _ _, shl _ _, sneReg _ _, ldI _, jpV0 _, rnd _ _,
    drw _ _ _, skp _, sknp _, ldVxDt _, ldVxK _, ldDtVx _, ldStVx _, addI _, ldF _, ldB _, storeRegs _, loadRegs _,
    unmatched _]

/-- A row selects exactly the words that decode to its mnemonic (40_cycle.md R102). -/
theorem selected_iff_mnemonic_decode {r : OpcodeRow} (hr : r ∈ opcodeRows) (w : Word) :
    w &&& r.mask = r.value ↔ (decode w).mnemonic = r.mnemonic := by
  refine ⟨mnemonic_decode_of_selected hr, fun hm => ?_⟩
  have hsel := rowSelected (decode w) r hr hm.symm
  rw [(decode_reads w).1] at hsel
  exact eq_of_beq hsel

/-- Every instruction but the unmatched one has a row (R74). -/
theorem exists_row_or_unmatched (i : Instr) : (∃ r ∈ opcodeRows, i.mnemonic = r.mnemonic) ∨ ∃ u, i = .unmatched u := by
  cases i with
  | unmatched u => exact .inr ⟨u, rfl⟩
  | _ => left; simp only [Instr.mnemonic]; decide

/-- No row has the mnemonic of the unmatched words (R76). -/
theorem mnemonic_ne_unmatched (u : Word) : ∀ r ∈ opcodeRows, (Instr.unmatched u).mnemonic ≠ r.mnemonic := by
  simp only [Instr.mnemonic]
  decide

/-- No row selects a word exactly when it decodes to itself as unmatched (40_cycle.md R102, R105). -/
theorem no_row_iff_decode_unmatched (w : Word) :
    (∀ r ∈ opcodeRows, w &&& r.mask ≠ r.value) ↔ decode w = .unmatched w := by
  constructor
  · intro h
    rcases exists_row_or_unmatched (decode w) with ⟨r, hr, hm⟩ | ⟨u, hu⟩
    · exact absurd ((selected_iff_mnemonic_decode hr w).mpr hm) (h r hr)
    · have huw : encode (.unmatched u) = w := hu ▸ (decode_reads w).1
      rw [hu, ← huw]
      rfl
  · intro h r hr hsel
    have hm := mnemonic_decode_of_selected hr hsel
    rw [h] at hm
    exact mnemonic_ne_unmatched w r hr hm

end Sys2Proof
end

section
/-! SUPPORT. An instruction step in its two cases, and the outcomes of an instruction (40_cycle.md R100 to R104). -/

namespace Sys2Proof.Machine

/-- Inside memory an instruction step runs the fetched word on the state with PC advanced (40_cycle.md R100, R103). -/
theorem instrStep_inside {s : State} (h : s.pc.toNat ≤ 0xFFE) :
    instrStep s = exec (decode s.fetchWord) (s.setPc (s.pc + 2)) := by
  rcases instrStep_cases s with ⟨-, e⟩ | ⟨hgt, -⟩
  · exact e
  · omega

/-- Above 0xFFE an instruction step raises the fetch fault (40_cycle.md R101). -/
theorem instrStep_outside {s : State} (h : s.pc.toNat > 0xFFE) :
    instrStep s = .fault (.fetchOutOfRange (s.withFault .fetchOutOfRange s.pc)) := by
  rcases instrStep_cases s with ⟨hle, -⟩ | ⟨-, e⟩
  · omega
  · exact e

/-- A key skip completes or faults by its key (45_timers_input.md R219). -/
theorem withKey_skip_ne_refused (x : RegIx) (c : Nat → State → Bool) (s : State) (r : Refusal) :
    withKey x s (fun k u => skipIf (c k u) u) ≠ .refused r := by
  intro h
  rcases withKey_cases x s (fun k u => skipIf (c k u) u) with ⟨-, e⟩ | ⟨-, e⟩
  · cases (e.trans (skipIf_eq _ s)).symm.trans h
  · cases e.symm.trans h

/-- Every instruction completes or faults (40_cycle.md R104). -/
theorem exec_ne_refused (i : Instr) (s : State) (r : Refusal) : exec i s ≠ .refused r := by
  intro h
  cases i with
  | drw x y n => rcases exec_drw_cases x y n s with e | e <;> cases e.symm.trans h
  | ldB x => rcases exec_ldB_cases x s with e | e <;> cases e.symm.trans h
  | storeRegs x => rcases exec_storeRegs_cases x s with e | e <;> cases e.symm.trans h
  | loadRegs x => rcases exec_loadRegs_cases x s with e | e <;> cases e.symm.trans h
  | skp x => exact withKey_skip_ne_refused x (fun k u => u.keyHeld k) s r h
  | sknp x => exact withKey_skip_ne_refused x (fun k u => !u.keyHeld k) s r h
  | seImm x nn | sneImm x nn | seReg x y | sneReg x y => cases (skipIf_eq _ s).symm.trans h
  | ret => rcases exec_ret_cases s with ⟨_, e⟩ | ⟨-, e⟩ <;> cases e.symm.trans h
  | call nnn => rcases exec_call_cases nnn s with ⟨-, e⟩ | ⟨-, e⟩ <;> cases e.symm.trans h
  | ldVxK x => rcases exec_ldVxK_cases x s with ⟨k, -, e⟩ | ⟨-, e⟩ <;> cases e.symm.trans h
  | _ => cases h

end Sys2Proof.Machine
end

section
/-! The cycle: decode, the step, and what a step can answer (40_cycle.md). -/

namespace Sys2Proof.Machine

/-- Settles O3: the operands are read off the word the instruction encodes to, and a row's mask covers what the decoder tests. -/
theorem decodeSelectsRowAndFields : Obligations.DecodeSelectsRowAndFields := by
  intro w
  have hfields := fieldsFrom_encode (decode w)
  rw [(decode_reads w).1] at hfields
  exact ⟨hfields, fun r hr => selected_iff_mnemonic_decode hr w, no_row_iff_decode_unmatched w⟩

/-- Settles O10: no instruction refuses, and every other way a step can go completes or faults. -/
theorem stepNeverRefuses : Obligations.StepNeverRefuses := by
  intro s r h
  rcases step_cases s with ⟨-, e⟩ | ⟨-, -, e⟩ | ⟨-, -, e⟩ | ⟨-, _, _, -, -, e⟩
  · cases e.symm.trans h
  · rcases instrStep_cases { s with schedule := s.schedule.tail } with ⟨-, e'⟩ | ⟨-, e'⟩
    · exact exec_ne_refused _ _ r ((e.trans e').symm.trans h)
    · cases (e.trans e').symm.trans h
  · cases e.symm.trans h
  · cases e.symm.trans h

/-- Settles O6: scheduled or not, the step is the instruction step, whose fetched word is that of the two bytes. -/
theorem stepRunsDecodedInstruction : Obligations.StepRunsDecodedInstruction := by
  intro s i hf hpc hi
  rw [decodeBytes_fetch] at hi
  cases hi
  exact ⟨fun hs => (step_of_nil hf hs).trans (instrStep_inside hpc),
    fun rest hs => (step_of_step hf hs).trans (instrStep_inside (s := { s with schedule := rest }) hpc)⟩

/-- Settles O7: the fetch fault puts PC back where it was. -/
theorem fetchOutOfRangeFaults : Obligations.FetchOutOfRangeFaults :=
  fun _ hf hs hpc => (step_of_nil hf hs).trans (instrStep_outside hpc)

/-- Settles O8: a word that no row selects decodes to the instruction that does nothing. -/
theorem unmatchedWordOnlyAdvancesPc : Obligations.UnmatchedWordOnlyAdvancesPc := by
  refine ⟨fun s hf hs hpc hrows => ?_, fun _ _ => rfl⟩
  rw [step_of_nil hf hs, instrStep_inside hpc, (no_row_iff_decode_unmatched s.fetchWord).mp hrows]
  rfl

/-- Settles O9: the step and the environment's transactions all look at `FAULT` first. -/
theorem faultedMachineIgnoresTransactions : Obligations.FaultedMachineIgnoresTransactions :=
  fun _ _ _ _ hf => ⟨step_of_fault hf, unlessFaulted_of_some hf _, unlessFaulted_of_some hf _⟩

end Sys2Proof.Machine
end

section
/-! SUPPORT. What a jump, a skip, a push and a pop leave: PC, the stack, and the frame of each; and the register BNNN adds
(41_control_flow.md R120 to R130). -/

namespace Sys2Proof.Machine

/-- A transfer to any address writes PC alone. -/
theorem keepsAllBut_setPc (s : State) (a : Word) : KeepsAllBut [.pc] s (s.setPc a) := by
  constructor <;> simp

/-- A reported error writes the log alone (60_exceptions.md R231, R232). -/
theorem keepsAllBut_errlog (s : State) (l : List ErrorEvent) : KeepsAllBut [.errlog] s { s with errlog := l } := by
  constructor <;> simp [State.byteAt]

/-- A skip whose test says whether `P` holds moves PC past one word when `P` does, and writes nothing else (R120). -/
theorem skipIf_completes {c : Bool} {P : Prop} [Decidable P] (s : State) (hc : c = true ↔ P) :
    ∃ t, skipIf c s = .next t ∧ t.pc.toNat = (if P then (s.pc.toNat + 2) % 65536 else s.pc.toNat) ∧
      KeepsAllBut [.pc] s t := by
  refine ⟨_, skipIf_eq c s, ?_, keepsAllBut_setPc s _⟩
  simp only [State.setPc_pc, hc]
  split
  · exact BitVec.toNat_add ..
  · rfl

/-- With an entry free 2NNN pushes PC and jumps (R121, R125). -/
theorem exec_call_of_ne_zero (nnn : Addr12) {s : State} (h : s.sp ≠ 0) : exec (.call nnn) s =
    .next { s with stk := s.stk.setIfInBounds (s.sp.toNat - 1) s.pc, sp := s.sp - 1, pc := addrWord nnn } := by
  rcases exec_call_cases nnn s with ⟨-, e⟩ | ⟨h0, -⟩
  · exact e
  · exact absurd h0 h

/-- With no entry free 2NNN reports the overflow (R121). -/
theorem exec_call_of_eq_zero (nnn : Addr12) {s : State} (h : s.sp = 0) :
    exec (.call nnn) s = .next { s with errlog := s.errlog ++ [⟨.stackOverflow, s.instrAddr⟩] } := by
  rcases exec_call_cases nnn s with ⟨h0, -⟩ | ⟨-, e⟩
  · exact absurd h h0
  · exact e

/-- With an entry in use 00EE goes to the one at SP (R122, R123). -/
theorem exec_ret_of_lt {s : State} (h : s.sp.toNat < 16) :
    exec .ret s = .next { s with sp := s.sp + 1, pc := s.stk[s.sp.toNat]'h } := by
  rcases exec_ret_cases s with ⟨_, e⟩ | ⟨hge, -⟩
  · exact e
  · omega

/-- With no entry in use 00EE reports the underflow (R122). -/
theorem exec_ret_of_ge {s : State} (h : s.sp.toNat ≥ 16) :
    exec .ret s = .next { s with errlog := s.errlog ++ [⟨.stackUnderflow, s.instrAddr⟩] } := by
  rcases exec_ret_cases s with ⟨hlt, -⟩ | ⟨-, e⟩
  · omega
  · exact e

/-- In legacy mode BNNN adds V0 (R130). -/
theorem jumpReg_of_legacy (nnn : Addr12) {s : State} (h : s.legacy = true) : s.jumpReg nnn = 0 := if_pos h

/-- In modern mode BNNN adds the register that NNN's top nibble names (R130; 30_encoding.md R73). -/
theorem jumpReg_of_modern {nnn : Addr12} {s : State} {x : RegIx} (h : s.legacy = false) (hx : x.toNat = nnn.toNat / 0x100) :
    s.jumpReg nnn = x := by
  have hnibble : topNibble nnn = x := by
    refine BitVec.eq_of_toNat_eq ?_
    have := nnn.isLt
    rw [hx, topNibble, BitVec.extractLsb'_toNat, Nat.shiftRight_eq_div_pow]
    omega
  simpa [State.jumpReg, h] using hnibble

end Sys2Proof.Machine
end

section
/-! The control-flow instructions (41_control_flow.md). -/

namespace Sys2Proof.Machine

/-- Settles O26: the target is NNN extended to a word. -/
theorem jumpSetsPc : Obligations.JumpSetsPc :=
  fun nnn s => ⟨_, rfl, toNat_addrWord nnn, keepsAllBut_setPc s _⟩

/-- Settles O27: SP says whether 2NNN pushes or reports. -/
theorem callPushesReturnAddress : Obligations.CallPushesReturnAddress := by
  intro nnn s
  refine ⟨fun hpos _ => ?free, fun hzero => ?full⟩
  case free =>
    have h0 : s.sp ≠ 0 := by bv_omega
    refine ⟨_, exec_call_of_ne_zero nnn h0, toNat_addrWord nnn, toNat_sub_one h0, fun j hj => ?_, ?_⟩
    · rw [Vector.getElem_setIfInBounds]
      exact if_congr eq_comm rfl rfl
    · constructor <;> simp [State.byteAt]
  case full =>
    exact ⟨_, exec_call_of_eq_zero nnn (BitVec.eq_of_toNat_eq hzero), rfl, keepsAllBut_errlog s _⟩

/-- Settles O28: SP says whether 00EE pops or reports. -/
theorem retPopsReturnAddress : Obligations.RetPopsReturnAddress := by
  intro s
  refine ⟨fun hlt => ?inUse, fun hge => ?empty⟩
  case inUse =>
    refine ⟨_, exec_ret_of_lt hlt, rfl, toNat_add_one hlt, ?_⟩
    constructor <;> simp [State.byteAt]
  case empty => exact ⟨_, exec_ret_of_ge hge, rfl, keepsAllBut_errlog s _⟩

/-- Settles O29: the call writes the entry at its new SP, the subroutine leaves both, and the return reads that entry. -/
theorem returnResumesAfterCall : Obligations.ReturnResumesAfterCall := by
  intro nnn s hpos hle
  have h0 : s.sp ≠ 0 := by bv_omega
  have hsp : (s.sp - 1).toNat = s.sp.toNat - 1 := toNat_sub_one h0
  have hlt : (s.sp - 1).toNat < 16 := by omega
  have hentry : (s.stk.setIfInBounds (s.sp.toNat - 1) s.pc)[(s.sp - 1).toNat]'hlt = s.pc := by
    simp only [hsp, Vector.getElem_setIfInBounds_self]
  refine ⟨_, exec_call_of_ne_zero nnn h0, fun q v => ⟨_, exec_ret_of_lt hlt, hentry, BitVec.sub_add_cancel _ _, ?frame⟩⟩
  constructor
  case pc => exact fun _ => hentry
  all_goals simp [State.byteAt]

/-- Settles O30: each compare is a skip whose test is an equality of bytes, that is of their numbers. -/
theorem comparesSkipOneWord : Obligations.ComparesSkipOneWord := by
  intro x y nn s
  refine ⟨skipIf_completes s ?seImm, skipIf_completes s ?sneImm, skipIf_completes s ?seReg, skipIf_completes s ?sneReg⟩ <;>
    simp [BitVec.toNat_eq]

/-- Settles O31: the target is an exact sum; the mode selects the register added. -/
theorem jumpWithOffset : Obligations.JumpWithOffset := by
  intro nnn s
  have hpc : (s.setPc (addrWord nnn + s.regWord (s.jumpReg nnn))).pc.toNat = nnn.toNat + (s.reg (s.jumpReg nnn)).toNat :=
    toNat_jumpTarget ..
  refine ⟨_, rfl, fun hlegacy => ?legacy, fun hmodern x hx => ?modern, keepsAllBut_setPc s _⟩
  case legacy => rw [hpc, jumpReg_of_legacy nnn hlegacy]
  case modern => rw [hpc, jumpReg_of_modern hmodern hx]

end Sys2Proof.Machine
end

section
/-! SUPPORT. What a completed register write and a result with its flag leave, the numbers of the ALU's results and flags, and
what one draw gives (42_alu.md R140 to R152). -/

namespace Sys2Proof.Machine

/-! ### What is left by a completed write -/
section
variable {i : Instr} {s : State} {x : RegIx} {b : Byte} {f : Bool}

/-- An instruction that writes `V[x]` alone leaves the value there and touches nothing else, VF included (R141 to R146). -/
theorem setReg_completes (h : exec i s = .next (s.setReg x b)) (hw : mayWrite s.legacy i = [.v]) :
    ∃ t, exec i s = .next t ∧ t.reg x = b ∧ keepsRegsBut x s t ∧ KeepsAllBut [.v] s t :=
  ⟨_, h, State.reg_setReg_self .., fun _ hr => State.reg_setReg_of_ne s b hr, hw ▸ exec_frame h⟩

/-- After a result with its flag VF is the flag (R140; 10_state.md R22). -/
theorem State.reg_setResult_flag : (s.setResult x b f).reg flagIx = flagByte f := by
  simp [State.reg_setResult]

/-- A destination that is not VF holds the result. -/
theorem State.reg_setResult_self (h : x ≠ flagIx) : (s.setResult x b f).reg x = b := by
  simp [State.reg_setResult, h]

/-- Any other register is as before. -/
theorem State.reg_setResult_of_ne {r : RegIx} (h : r ≠ x) (hf : r ≠ flagIx) : (s.setResult x b f).reg r = s.reg r := by
  simp [State.reg_setResult, h, hf]

/-- An instruction that writes a result and its flag: the result stands in `V[x]` unless that is VF, which holds the flag in any
case (R140; 10_state.md R22). -/
theorem setResult_completes {m n : Nat} (h : exec i s = .next (s.setResult x b f)) (hw : mayWrite s.legacy i = [.v])
    (hb : b.toNat = n) (hf : (flagByte f).toNat = m) :
    ∃ t, exec i s = .next t ∧ (x ≠ 0xF → (t.reg x).toNat = n) ∧ (t.reg 0xF).toNat = m ∧ keepsRegsButFlag x s t ∧
      KeepsAllBut [.v] s t := by
  refine ⟨_, h, fun hx => ?result, ?flag, fun _ hr hrF => State.reg_setResult_of_ne hr hrF, hw ▸ exec_frame h⟩
  case result => rw [State.reg_setResult_self hx, hb]
  case flag => exact (congrArg BitVec.toNat State.reg_setResult_flag).trans hf

end

/-! ### Results and flags as numbers -/
section
variable (a b : Byte)

/-- A difference of bytes is the difference modulo 256 (R140). -/
theorem toNat_sub_byte : (a - b).toNat = (a.toNat + 256 - b.toNat) % 256 := by
  rw [BitVec.toNat_sub]
  have := b.isLt
  omega

/-- A byte shifted left by one is doubled modulo 256 (R151). -/
theorem toNat_shiftLeft_one_byte : (a <<< 1).toNat = 2 * a.toNat % 256 := by
  rw [BitVec.toNat_shiftLeft, Nat.shiftLeft_eq, Nat.pow_one, Nat.mul_comm]

/-- The byte of a decided flag is 1 when the condition holds, else 0 (10_state.md R22). -/
theorem toNat_flagByte_decide (p : Prop) [Decidable p] : (flagByte (decide p)).toNat = if p then 1 else 0 := by
  simp only [flagByte_toNat, decide_eq_true_eq]

/-- The bit shifted out on the right is the remainder of the halving (R149). -/
theorem toNat_flagByte_shiftedOutRight : (flagByte (shiftedOutRight a)).toNat = a.toNat % 2 := by
  rw [shiftedOutRight, BitVec.getLsbD, Nat.testBit_zero, toNat_flagByte_decide]
  split <;> omega

/-- The bit shifted out on the left is the overflow of the doubling (R151). -/
theorem toNat_flagByte_shiftedOutLeft : (flagByte (shiftedOutLeft a)).toNat = a.toNat / 128 := by
  have := a.isLt
  rw [shiftedOutLeft, BitVec.getLsbD, Nat.testBit_eq_decide_div_mod_eq, toNat_flagByte_decide]
  split <;> omega

end

/-! ### One draw (10_state.md R38) -/
section
variable {s : State}

/-- With a byte listed the draw takes it off the list. -/
theorem randByte_of_cons {r : Byte} {rest : List Byte} (h : s.randIn = r :: rest) :
    randByte s = (r, { s with randIn := rest }) := by
  simp only [randByte, h]

/-- With none listed the draw is free and is counted. -/
theorem randByte_of_nil (h : s.randIn = []) :
    randByte s = (Config.freeByte s.draws, { s with draws := s.draws + 1 }) := by
  simp only [randByte, h]

/-- A draw writes no register. -/
theorem reg_randByte (s : State) (r : RegIx) : (randByte s).2.reg r = s.reg r :=
  State.reg_congr (congrArg State.v (randByte_state s)) r

end

end Sys2Proof.Machine
end

section
/-! The arithmetic-logic instructions (42_alu.md). -/

namespace Sys2Proof.Machine

/-- Settles O32: both are a write of one register. -/
theorem registerLoads : Obligations.RegisterLoads :=
  fun _ _ _ _ => ⟨setReg_completes rfl rfl, setReg_completes rfl rfl⟩

/-- Settles O33: a write of the sum, and of no flag. -/
theorem addImmediateWritesNoFlag : Obligations.AddImmediateWritesNoFlag := by
  intro x nn s
  obtain ⟨t, ht, hx, hregs, hframe⟩ := setReg_completes (i := .addImm x nn) (s := s) rfl rfl
  exact ⟨t, ht, hx ▸ BitVec.toNat_add .., hregs, hframe⟩

/-- Settles O34: a write of the bitwise result, and of no flag. -/
theorem logicOperationsWriteNoFlag : Obligations.LogicOperationsWriteNoFlag := by
  intro x y s
  refine ⟨?or, ?and, ?xor⟩
  case or =>
    obtain ⟨t, ht, hx, hregs, hframe⟩ := setReg_completes (i := .orReg x y) (s := s) rfl rfl
    exact ⟨t, ht, fun _ => hx ▸ BitVec.getLsbD_or, hregs, hframe⟩
  case and =>
    obtain ⟨t, ht, hx, hregs, hframe⟩ := setReg_completes (i := .andReg x y) (s := s) rfl rfl
    exact ⟨t, ht, fun _ => hx ▸ BitVec.getLsbD_and, hregs, hframe⟩
  case xor =>
    obtain ⟨t, ht, hx, hregs, hframe⟩ := setReg_completes (i := .xorReg x y) (s := s) rfl rfl
    exact ⟨t, ht, fun _ => hx ▸ BitVec.getLsbD_xor, hregs, hframe⟩

/-- Settles O35: the sum modulo 256 with the carry as its flag. -/
theorem addSetsCarry : Obligations.AddSetsCarry :=
  fun _ _ _ => setResult_completes rfl rfl (BitVec.toNat_add ..) (toNat_flagByte_decide _)

/-- Settles O36: the two differences, each with its no-borrow flag. -/
theorem subtractionsSetNoBorrow : Obligations.SubtractionsSetNoBorrow :=
  fun _ _ _ => ⟨setResult_completes rfl rfl (toNat_sub_byte ..) (toNat_flagByte_decide _),
    setResult_completes rfl rfl (toNat_sub_byte ..) (toNat_flagByte_decide _)⟩

/-- Settles O37: the operand of the mode, halved, with the remainder as the flag. -/
theorem shiftRightOperandAndFlag : Obligations.ShiftRightOperandAndFlag := by
  intro x y s
  have hhalf : (s.shiftOperand x y >>> 1).toNat = (s.shiftOperand x y).toNat / 2 := BitVec.toNat_ushiftRight ..
  obtain ⟨t, ht, hx, hflag, hregs, hframe⟩ :=
    setResult_completes (i := .shr x y) rfl rfl hhalf (toNat_flagByte_shiftedOutRight _)
  exact ⟨t, ht, fun a ha => by subst ha; exact ⟨hx, hflag⟩, hregs, hframe⟩

/-- Settles O38: the operand of the mode, doubled, with the overflow as the flag. -/
theorem shiftLeftOperandAndFlag : Obligations.ShiftLeftOperandAndFlag := by
  intro x y s
  obtain ⟨t, ht, hx, hflag, hregs, hframe⟩ :=
    setResult_completes (i := .shl x y) (s := s) rfl rfl (toNat_shiftLeft_one_byte _) (toNat_flagByte_shiftedOutLeft _)
  exact ⟨t, ht, fun a ha => by subst ha; exact ⟨hx, hflag⟩, hregs, hframe⟩

/-- Settles O39: whatever the draw, `V[x]` gets it masked; where it came from is the draw's own case. -/
theorem randomByteIsMasked : Obligations.RandomByteIsMasked := by
  intro x nn s
  have hx : ((randByte s).2.setReg x ((randByte s).1 &&& nn)).reg x = (randByte s).1 &&& nn := State.reg_setReg_self ..
  refine ⟨_, rfl, fun r rest hlist => ?listed, fun hlist => ?free, fun k hk => ?masked, fun r hr => ?others,
    exec_frame (i := .rnd x nn) rfl⟩
  case listed => rw [hx, randByte_of_cons hlist]; exact ⟨rfl, rfl, rfl⟩
  case free => rw [hx, randByte_of_nil hlist]; exact ⟨rfl, hlist, rfl⟩
  case masked => rw [hx, BitVec.getLsbD_and, hk, Bool.and_false]
  case others => rw [State.reg_setReg_of_ne _ _ hr, reg_randByte]

end Sys2Proof.Machine
end

section
/-! SUPPORT. The bytes of a block write, one by one and outside it; the digits of FX33; the registers FX65 leaves; and the numbers
FX1E and FX29 give I (43_index_memory.md R170 to R177). -/

namespace Sys2Proof.Machine

/-! ### Bytes of a block write (R170) -/

/-- Inside a block write each byte reads as written. -/
theorem Memory.read_writeBytes_add {bs : List Byte} {m : Memory} {a k : Nat} (ha : a + bs.length ≤ 0x1000)
    (hk : k < bs.length) : (m.writeBytes a bs).read (a + k) = bs[k] := by
  rw [Memory.read_writeBytes _ _ _ _ ha, dif_pos (by omega)]
  simp only [Nat.add_sub_cancel_left]

/-- Outside a block write every byte reads as before. -/
theorem Memory.read_writeBytes_of_outside {bs : List Byte} {m : Memory} {a b : Nat} (ha : a + bs.length ≤ 0x1000)
    (hb : b < a ∨ a + bs.length ≤ b) : (m.writeBytes a bs).read b = m.read b := by
  rw [Memory.read_writeBytes _ _ _ _ ha, dif_neg (by omega)]

/-! ### Decimal digits (R174) -/

/-- The digits of a byte fit in bytes, so they are its decimal digits as numbers. -/
theorem map_toNat_bcdDigits (b : Byte) :
    (bcdDigits b).map BitVec.toNat = [b.toNat / 100, b.toNat / 10 % 10, b.toNat % 10] := by
  have := b.isLt
  simp only [bcdDigits, List.map_cons, List.map_nil, BitVec.toNat_ofNat, List.cons.injEq, and_true]
  omega

/-- After FX33's block write the byte at offset k is the k-th digit, hundreds first. -/
theorem Memory.toNat_read_writeDigits (m : Memory) {a k : Nat} (b : Byte) (ha : a + 2 ≤ 0xFFF) (hk : k < 3) :
    ((m.writeBytes a (bcdDigits b)).read (a + k)).toNat = [b.toNat / 100, b.toNat / 10 % 10, b.toNat % 10][k] := by
  have hrange : a + (bcdDigits b).length ≤ 0x1000 := Nat.succ_le_succ ha
  rw [Memory.read_writeBytes_add hrange hk]
  exact (List.getElem_map BitVec.toNat).symm.trans (List.getElem_of_eq (map_toNat_bcdDigits b) hk)

/-! ### Registers of a block load (R177) -/

/-- After a block load register k is the byte at `I + k` up to X, and above X as before. -/
theorem State.reg_loadBlock (s : State) (x k : RegIx) (j : Word) :
    ({ s with v := loadBlock s.mem (s.dataAddr 0) (x.toNat + 1) s.v, i := j } : State).reg k =
      if k.toNat ≤ x.toNat then s.byteAt (s.i.toNat + k.toNat) else s.reg k :=
  (loadBlock_getElem _ _ _ _ _ k.isLt).trans (if_congr Nat.lt_succ_iff rfl rfl)

/-! ### Numbers of the index, and its flag (R172, R173) -/

/-- After a flag write VF is the flag (10_state.md R22). -/
theorem State.reg_setFlag_self (s : State) (f : Bool) : (s.setFlag f).reg flagIx = flagByte f := State.reg_setReg_self ..

/-- The new index of FX1E is the sum modulo 65536. -/
theorem State.toNat_add_regWord (s : State) (x : RegIx) :
    (s.i + s.regWord x).toNat = (s.i.toNat + (s.reg x).toNat) % 65536 := by
  rw [State.regWord, BitVec.toNat_add, BitVec.toNat_setWidth_of_le (by decide)]

/-- The glyph address is the exact product and sum, at most 0x09B. -/
theorem toNat_glyphAddr (b : Byte) : (glyphAddr b).toNat = 0x050 + b.toNat % 16 * 5 := by
  have hlow : (b &&& 0x0F).toNat = b.toNat % 16 := (BitVec.toNat_and ..).trans (Nat.and_two_pow_sub_one_eq_mod _ 4)
  rw [glyphAddr, BitVec.toNat_ofNat, hlow, Config.fontBase]
  omega

end Sys2Proof.Machine
end

section
/-! The index register and the memory instructions (43_index_memory.md). -/

namespace Sys2Proof.Machine

/-- Settles O40: I is NNN extended to a word. -/
theorem loadIndexImmediate : Obligations.LoadIndexImmediate :=
  fun nnn _ => ⟨_, rfl, toNat_addrWord nnn, exec_frame (i := .ldI nnn) rfl⟩

/-- Settles O41: the sum and its flag are both of the operands before the write. -/
theorem addIndexSetsOverflow : Obligations.AddIndexSetsOverflow := by
  intro x s
  refine ⟨_, rfl, s.toNat_add_regWord x, ?flag, fun r hr => exec_keeps_reg (i := .addI x) rfl rfl fun _ => hr, ?frame⟩
  case flag => exact (congrArg BitVec.toNat (State.reg_setFlag_self ..)).trans (toNat_flagByte_decide _)
  case frame => constructor <;> simp

/-- Settles O42: I is the glyph's address. -/
theorem loadGlyphAddress : Obligations.LoadGlyphAddress :=
  fun x s => ⟨_, rfl, toNat_glyphAddr (s.reg x), exec_frame (i := .ldF x) rfl⟩

/-- Settles O43: a block write of the three digits, or the range check before it. -/
theorem bcdStoresThreeDigits : Obligations.BcdStoresThreeDigits := by
  intro x s
  refine ⟨fun h => ?_, execLdB_outside⟩
  have hdigit {k : Nat} := s.mem.toNat_read_writeDigits (k := k) (s.reg x) h
  refine ⟨_, execLdB_inside h, hdigit (k := 0) (by decide), hdigit (k := 1) (by decide), hdigit (k := 2) (by decide),
    fun a ha => ?others, exec_frame (i := .ldB x) (execLdB_inside h)⟩
  case others => exact Memory.read_writeBytes_of_outside (Nat.succ_le_succ h) (ha.imp_right Nat.succ_le_of_lt)

/-- Settles O44: a block write of the registers, or the range check before it. -/
theorem storeRegistersBlock : Obligations.StoreRegistersBlock := by
  intro x s
  refine ⟨fun h => ⟨_, execStoreRegs_inside h, fun k hk => read_storeBlock_of_le h hk, fun a ha => ?others,
    State.toNat_indexAfterBlock h, ?frame⟩, execStoreRegs_outside⟩
  case others => exact (read_storeBlock h a).trans (if_neg (by omega))
  case frame => constructor <;> simp

/-- Settles O45: a block load of the registers, or the range check before it. -/
theorem loadRegistersBlock : Obligations.LoadRegistersBlock := by
  intro x s
  refine ⟨fun h => ⟨_, execLoadRegs_inside h, fun k => s.reg_loadBlock x k _, State.toNat_indexAfterBlock h, ?frame⟩,
    execLoadRegs_outside⟩
  case frame => constructor <;> simp [State.byteAt]

/-- Settles O46: with I put back the load reads the bytes the store has written, whatever the registers hold. -/
theorem storeThenLoadRestoresRegisters : Obligations.StoreThenLoadRestoresRegisters := by
  intro x s v h
  obtain ⟨t, hstore, hbytes, -⟩ := (storeRegistersBlock x s).1 h
  obtain ⟨u, hload, hregs, -⟩ := (loadRegistersBlock x { t with i := s.i, v := v }).1 h
  refine ⟨t, hstore, u, hload, fun k hk => ?_⟩
  rw [hregs, if_pos hk]
  exact hbytes k hk

end Sys2Proof.Machine
end

section
/-! SUPPORT. What DXYN draws in terms of the pixels its sprite covers (44_display.md R191 to R194). -/

namespace Sys2Proof.Machine

/-- Whether the sprite DXYN draws has a set bit at the pixel `(cx, cy)` of the grid. -/
def State.drawnBit (s : State) (x y : RegIx) (n : Nibble) (cx cy : Nat) : Bool :=
  spriteBit s.mem (s.dataAddr 0) (s.spriteCol x) (s.spriteRow y) n.toNat cx cy

section
variable {s : State} {x y : RegIx} {n : Nibble} {cx cy : Nat}

/-- The sprite has a set bit exactly at the pixels of the grid that it covers (R191, R194). -/
theorem drawnBit_iff_spriteCovers :
    s.drawnBit x y n cx cy = true ↔ cx < 64 ∧ cy < 32 ∧ spriteCovers s x y n cx cy := by
  rw [State.drawnBit, spriteBit, Bool.and_eq_true, decide_eq_true_iff]
  constructor
  · rintro ⟨⟨hcol, hcol', hx, hrow, hrow', hy⟩, hbit⟩
    exact ⟨hx, hy, hcol, hcol', hrow, hrow', hbit⟩
  · rintro ⟨hx, hy, hcol, hcol', hrow, hrow', hbit⟩
    exact ⟨⟨hcol, hcol', hx, hrow, hrow', hy⟩, hbit⟩

/-- Drawing turns over the pixels at which the sprite has a set bit (R191). -/
theorem pixelAt_drawn : pixelAt (s.drawn x y n).1 cx cy = (fbOut s cx cy ^^ s.drawnBit x y n cx cy) :=
  (drawSprite_spec ..).1 cx cy

/-- A pixel of the grid that the sprite covers is flipped. -/
theorem pixelAt_drawn_of_covers (hx : cx < 64) (hy : cy < 32) (h : spriteCovers s x y n cx cy) :
    pixelAt (s.drawn x y n).1 cx cy = !fbOut s cx cy := by
  rw [pixelAt_drawn, drawnBit_iff_spriteCovers.mpr ⟨hx, hy, h⟩, Bool.xor_true]

/-- A pixel that the sprite does not cover is kept. -/
theorem pixelAt_drawn_of_not_covers (h : ¬ spriteCovers s x y n cx cy) :
    pixelAt (s.drawn x y n).1 cx cy = fbOut s cx cy := by
  have hbit : ¬ s.drawnBit x y n cx cy = true := fun hbit => h (drawnBit_iff_spriteCovers.mp hbit).2.2
  rw [pixelAt_drawn, Bool.eq_false_of_not_eq_true hbit, Bool.xor_false]

/-- The collision flag is raised exactly when a pixel of the grid that the sprite covers was on (R191). -/
theorem drawn_collision_iff : (s.drawn x y n).2 = true ↔
    ∃ cx cy : Nat, cx < 64 ∧ cy < 32 ∧ spriteCovers s x y n cx cy ∧ fbOut s cx cy = true := by
  refine (drawSprite_spec ..).2.trans (exists₂_congr fun cx cy => ?_)
  exact (and_congr_left' drawnBit_iff_spriteCovers).trans (by simp only [and_assoc, fbOut])

/-- A second draw that reads the same registers and bytes undoes the first: every pixel is turned over twice or not at all
(R191). -/
theorem pixelAt_drawn_drawn :
    pixelAt (({ s with fb := (s.drawn x y n).1 } : State).drawn x y n).1 cx cy = fbOut s cx cy :=
  calc
    _ = (pixelAt (s.drawn x y n).1 cx cy ^^ s.drawnBit x y n cx cy) := pixelAt_drawn
    _ = (fbOut s cx cy ^^ s.drawnBit x y n cx cy ^^ s.drawnBit x y n cx cy) := by rw [pixelAt_drawn]
    _ = fbOut s cx cy := by rw [Bool.xor_assoc, Bool.xor_self, Bool.xor_false]

end

end Sys2Proof.Machine
end

section
/-! The framebuffer instructions (44_display.md). -/

namespace Sys2Proof.Machine

/-- Settles O50: the pixels and the flag are those of the drawn sprite; the range check comes before it. -/
theorem drawXorsSprite : Obligations.DrawXorsSprite := by
  intro x y n s
  refine ⟨fun h => ?_, fun hpos hgt => execDrw_outside ⟨hpos, hgt⟩⟩
  have hexec : exec (.drw x y n) s = _ := execDrw_inside h
  refine ⟨_, hexec, fun cx cy hx hy => ⟨pixelAt_drawn_of_covers hx hy, pixelAt_drawn_of_not_covers⟩,
    fun hon => ?collision, fun hoff => ?noCollision, fun r hr => exec_keeps_reg hexec rfl fun _ => hr, exec_frame hexec⟩
  case collision => exact (State.reg_setFlag_self ..).trans (congrArg flagByte (drawn_collision_iff.mpr hon))
  case noCollision =>
    have hclear : ¬ (s.drawn x y n).2 = true := by
      rw [drawn_collision_iff]
      rintro ⟨cx, cy, hx, hy, hcov, hon⟩
      exact Bool.false_ne_true ((hoff cx cy hx hy hcov).symm.trans hon)
    exact (State.reg_setFlag_self ..).trans (congrArg flagByte (Bool.eq_false_of_not_eq_true hclear))

/-- Settles O52: with the registers put back the second draw turns over the same pixels. -/
theorem drawTwiceRestoresPixels : Obligations.DrawTwiceRestoresPixels :=
  fun _ _ _ _ h => ⟨_, execDrw_inside h, _, execDrw_inside h, fun _ _ _ _ => pixelAt_drawn_drawn⟩

/-- Settles O49: a write of the cleared framebuffer. -/
theorem clearTurnsAllPixelsOff : Obligations.ClearTurnsAllPixelsOff :=
  fun _ => ⟨_, rfl, fun x y _ _ => pixelAt_clearFrame x y, exec_frame (i := .cls) rfl⟩

/-- Settles O51: no row is drawn and no byte read, which leaves the write of a flag that is not raised. -/
theorem drawNoRows : Obligations.DrawNoRows := by
  intro x y s
  have hexec : exec (.drw x y 0) s = .next (s.setFlag false) := execDrw_inside (.inl rfl)
  refine ⟨_, hexec, rfl, State.reg_setFlag_self .., fun r hr => exec_keeps_reg hexec rfl fun _ => hr, ?frame⟩
  case frame => constructor <;> simp

end Sys2Proof.Machine
end

section
/-! SUPPORT. What a register write leaves, and what the key instructions answer: the key skips on a key and on no key, FX0A with
and without a released key, and its step back to itself (45_timers_input.md R217 to R222). -/

namespace Sys2Proof.Machine

/-- A register write leaves every other part of the state. -/
theorem keepsAllBut_setReg (s : State) (x : RegIx) (b : Byte) : KeepsAllBut [.v] s (s.setReg x b) := by
  constructor <;> simp

/-- When `V[x]` names a key the key instruction acts on it (R219). -/
theorem withKey_of_le {x : RegIx} {s : State} (h : (s.reg x).toNat ≤ 15) (act : Nat → State → Result) :
    withKey x s act = act (s.reg x).toNat s := if_neg (Nat.not_lt.mpr h)

/-- When `V[x]` names no key the key instruction raises `KeyOutOfRange` (R219). -/
theorem withKey_of_gt {x : RegIx} {s : State} (h : (s.reg x).toNat > 15) (act : Nat → State → Result) :
    withKey x s act = .fault (.keyOutOfRange (s.withFault .keyOutOfRange s.instrAddr)) := if_pos h

/-- EX9E skips on a held key (R217). -/
theorem exec_skp (x : RegIx) (s : State) : exec (.skp x) s = withKey x s fun k t => skipIf (t.keyHeld k) t := rfl

/-- EXA1 skips on a key that is not held (R218). -/
theorem exec_sknp (x : RegIx) (s : State) : exec (.sknp x) s = withKey x s fun k t => skipIf (!t.keyHeld k) t := rfl

/-- FX0A stores the lowest released key (R220, R221). -/
theorem exec_ldVxK_of_some {x : RegIx} {s : State} {k : Nat} (h : s.lowestReleased = some k) :
    exec (.ldVxK x) s = .next (s.setReg x (BitVec.ofNat 8 k)) := by
  rcases exec_ldVxK_cases x s with ⟨j, hj, e⟩ | ⟨hnone, -⟩
  · cases h.symm.trans hj; exact e
  · cases h.symm.trans hnone

/-- With no key released FX0A goes back to its own address (R222). -/
theorem exec_ldVxK_of_none {x : RegIx} {s : State} (h : s.lowestReleased = none) :
    exec (.ldVxK x) s = .next (s.setPc s.instrAddr) := by
  rcases exec_ldVxK_cases x s with ⟨j, hj, -⟩ | ⟨-, e⟩
  · cases h.symm.trans hj
  · exact e

/-- The word FX0A decodes to the wait for a key into `V[x]` (30_encoding.md R74). -/
theorem decode_keyWait (x : RegIx) : decode (formatRI 0xF x 0x0A) = .ldVxK x :=
  decode_encode (i := .ldVxK x) rfl

/-- PC put back to where the fetch began undoes the fetch (40_cycle.md R100). -/
theorem setPc_instrAddr_of_fetched (s : State) :
    (s.setPc (s.pc + 2)).setPc (s.setPc (s.pc + 2)).instrAddr = s := by
  rw [State.instrAddr_setPc_add]; rfl

end Sys2Proof.Machine
end

section
/-! The timers and the input latch (45_timers_input.md). -/

namespace Sys2Proof.Machine

/-- Settles O53: a write of one register, of DT and of ST. -/
theorem timerInstructions : Obligations.TimerInstructions :=
  fun x _ => ⟨setReg_completes rfl rfl, ⟨_, rfl, rfl, exec_frame (i := .ldDtVx x) rfl⟩,
    ⟨_, rfl, rfl, exec_frame (i := .ldStVx x) rfl⟩⟩

/-- Settles O54: each timer counts down to zero, so the sound timer is still positive exactly when it was above 1. -/
theorem tickCountsDown : Obligations.TickCountsDown := by
  intro s hf
  rw [tick_of_none hf]
  have hdt := toNat_countDown s.dt
  have hst := toNat_countDown s.st
  refine ⟨?dt, ?st, ?tone, ?frame⟩
  case dt => simp only [hdt]; split <;> omega
  case st => simp only [hst]; split <;> omega
  case tone => simp only [toneOut, decide_eq_true_iff, hst]; omega
  case frame => constructor <;> simp [State.byteAt]

/-- Settles O55: the latch is written whole, so each key reads its bit of the two words. -/
theorem inputUpdateWritesLatch : Obligations.InputUpdateWritesLatch := by
  intro h r s hf
  rw [inputUpdate_of_none hf]
  refine ⟨fun _ _ => ⟨rfl, rfl⟩, ?frame⟩
  case frame => constructor <;> simp [State.byteAt]

/-- Settles O56: on a key both are skips on its held flag; on no key both raise the same fault. -/
theorem keySkips : Obligations.KeySkips := by
  intro x s
  refine ⟨fun hkey => ⟨?held, ?notHeld⟩, fun hkey i hi => ?noKey⟩
  case held =>
    rw [exec_skp, withKey_of_le hkey]
    exact skipIf_completes s Iff.rfl
  case notHeld =>
    rw [exec_sknp, withKey_of_le hkey]
    exact skipIf_completes s (Bool.not_eq_true' _).to_iff
  case noKey =>
    rcases hi with rfl | rfl
    · exact (exec_skp x s).trans (withKey_of_gt hkey _)
    · exact (exec_sknp x s).trans (withKey_of_gt hkey _)

/-- Settles O57: the scan finds the lowest released key, whose index fits a byte, or none. -/
theorem keyWaitTakesLowestKey : Obligations.KeyWaitTakesLowestKey := by
  intro x s
  refine ⟨fun k hk hrel hlow => ?released, fun hnone => ?waiting⟩
  case released =>
    have hbyte : (BitVec.ofNat 8 k).toNat = k := (BitVec.toNat_ofNat ..).trans (Nat.mod_eq_of_lt (by omega))
    exact ⟨_, exec_ldVxK_of_some (State.lowestReleased_eq_some hk hrel hlow),
      (congrArg BitVec.toNat (State.reg_setReg_self ..)).trans hbyte, fun r hr => State.reg_setReg_of_ne s _ hr,
      keepsAllBut_setReg s x _⟩
  case waiting => exact ⟨_, exec_ldVxK_of_none (State.lowestReleased_eq_none hnone), rfl, keepsAllBut_setPc s _⟩

/-- Settles O58: the fetch moves PC past FX0A and the wait puts it back. -/
theorem keyWaitStepChangesNothing : Obligations.KeyWaitStepChangesNothing := by
  intro x s hf hs hpc hword hnone
  have hwait : (s.setPc (s.pc + 2)).lowestReleased = none := State.lowestReleased_eq_none hnone
  calc step s
    _ = exec (decode s.fetchWord) (s.setPc (s.pc + 2)) := (step_of_nil hf hs).trans (instrStep_inside hpc)
    _ = exec (.ldVxK x) (s.setPc (s.pc + 2)) := by rw [hword, decode_keyWait]
    _ = .next s := by rw [exec_ldVxK_of_none hwait, setPc_instrAddr_of_fetched]

end Sys2Proof.Machine
end

section
/-! SUPPORT. When an instruction completes, when it faults and by what, and what it leaves in `ERRLOG` (60_exceptions.md R231 to
R235). -/

namespace Sys2Proof.Machine

/-- An access that reaches above 0xFFF raises `MemOutOfRange` (R234). -/
theorem exec_of_memFaults {i : Instr} {s : State} (h : memFaults i s) :
    exec i s = .fault (.memOutOfRange (s.withFault .memOutOfRange s.instrAddr)) := by
  cases i with
  | drw x y n => exact execDrw_outside h
  | ldB x => exact execLdB_outside h
  | storeRegs x => exact execStoreRegs_outside h
  | loadRegs x => exact execLoadRegs_outside h
  | _ => exact h.elim

/-- A key instruction whose register names no key raises `KeyOutOfRange` (R234; 45_timers_input.md R219). -/
theorem exec_of_keyFaults {i : Instr} {s : State} (h : keyFaults i s) :
    exec i s = .fault (.keyOutOfRange (s.withFault .keyOutOfRange s.instrAddr)) := by
  cases i with
  | skp x => exact (exec_skp x s).trans (withKey_of_gt h _)
  | sknp x => exact (exec_sknp x s).trans (withKey_of_gt h _)
  | _ => exact h.elim

/-- A key skip whose register names a key completes (45_timers_input.md R217, R218). -/
theorem withKey_skip_completes {x : RegIx} {s : State} (h : ¬ (s.reg x).toNat > 15) (c : Nat → State → Bool) :
    ∃ t, withKey x s (fun k u => skipIf (c k u) u) = .next t :=
  ⟨_, (withKey_of_le (Nat.not_lt.mp h) _).trans (skipIf_eq ..)⟩

/-- With neither cause of a fault the instruction completes (R234; 40_cycle.md R104). -/
theorem exec_completes {i : Instr} {s : State} (hmem : ¬ memFaults i s) (hkey : ¬ keyFaults i s) :
    ∃ t, exec i s = .next t := by
  cases i with
  | drw x y n =>
    unfold memFaults at hmem
    exact ⟨_, execDrw_inside (by omega)⟩
  | ldB x => exact ⟨_, execLdB_inside (Nat.not_lt.mp hmem)⟩
  | storeRegs x => exact ⟨_, execStoreRegs_inside (Nat.not_lt.mp hmem)⟩
  | loadRegs x => exact ⟨_, execLoadRegs_inside (Nat.not_lt.mp hmem)⟩
  | skp x => exact withKey_skip_completes hkey fun k u => u.keyHeld k
  | sknp x => exact withKey_skip_completes hkey fun k u => !u.keyHeld k
  | seImm x nn | sneImm x nn | seReg x y | sneReg x y => exact ⟨_, skipIf_eq ..⟩
  | ret => rcases exec_ret_cases s with ⟨_, e⟩ | ⟨-, e⟩ <;> exact ⟨_, e⟩
  | call nnn => rcases exec_call_cases nnn s with ⟨-, e⟩ | ⟨-, e⟩ <;> exact ⟨_, e⟩
  | ldVxK x => rcases exec_ldVxK_cases x s with ⟨k, -, e⟩ | ⟨-, e⟩ <;> exact ⟨_, e⟩
  | _ => exact ⟨_, rfl⟩

/-- A fault of an instruction has one of the two causes, and its kind says which (R234). -/
theorem exec_fault_cause {i : Instr} {s : State} {f : Fault} (h : exec i s = .fault f) :
    (f.kind = .memOutOfRange ∧ memFaults i s) ∨ (f.kind = .keyOutOfRange ∧ keyFaults i s) := by
  by_cases hmem : memFaults i s
  · cases (exec_of_memFaults hmem).symm.trans h
    exact .inl ⟨rfl, hmem⟩
  · by_cases hkey : keyFaults i s
    · cases (exec_of_keyFaults hkey).symm.trans h
      exact .inr ⟨rfl, hkey⟩
    · obtain ⟨t, e⟩ := exec_completes hmem hkey
      cases e.symm.trans h

/-- The fetch fault is no instruction's (R234; 40_cycle.md R101). -/
theorem exec_fault_ne_fetch {i : Instr} {s : State} {f : Fault} (h : exec i s = .fault f) : f.kind ≠ .fetchOutOfRange := by
  rcases exec_fault_cause h with ⟨hk, -⟩ | ⟨hk, -⟩ <;> simp [hk]

/-- Only a machine without a recorded fault can fault (40_cycle.md R106). -/
theorem fault_eq_none_of_step_fault {s : State} {f : Fault} (h : step s = .fault f) : s.fault = none := by
  cases hf : s.fault with
  | none => rfl
  | some r => cases (step_of_fault hf).symm.trans h

/-- A call that can push, a return that can pop and every other instruction leave the log (R231, R232). -/
theorem exec_keeps_errlog {i : Instr} {s t : State} (h : exec i s = .next t) (hcall : ∀ nnn, i = .call nnn → s.sp ≠ 0)
    (hret : i = .ret → s.sp.toNat < 16) : t.errlog = s.errlog := by
  rcases ret_or_call_or_keeps_stack s.legacy i with rfl | ⟨nnn, rfl⟩ | ⟨-, -, hlog⟩
  · cases (exec_ret_of_lt (hret rfl)).symm.trans h; rfl
  · cases (exec_call_of_ne_zero nnn (hcall nnn rfl)).symm.trans h; rfl
  · exact (exec_frame h).errlog hlog

end Sys2Proof.Machine
end

section
/-! Faults and reported errors (60_exceptions.md). -/

namespace Sys2Proof.Machine

/-- Settles O14: the state of a faulting step is known in full, and with its fault recorded nothing acts on it. -/
theorem faultsArePrecise : Obligations.FaultsArePrecise := by
  intro s f h
  have hfinal := step_fault h
  have hrecord : f.final.fault = some ⟨f.kind, s.pc⟩ := by rw [hfinal]
  refine ⟨fault_eq_none_of_step_fault h, ?frame, hrecord, hrecord, step_of_fault hrecord,
    unlessFaulted_of_some hrecord _, fun _ _ => unlessFaulted_of_some hrecord _⟩
  case frame =>
    rw [hfinal]
    constructor <;> simp [State.byteAt]

/-- Settles O15: each cause raises its own fault, each fault of an instruction has its cause, and the fetch faults only above
0xFFE. -/
theorem faultCauses : Obligations.FaultCauses := by
  refine ⟨fun i s => ⟨⟨?memCause, fun hm => ⟨_, exec_of_memFaults hm, rfl⟩⟩,
    ⟨?keyCause, fun hk => ⟨_, exec_of_keyFaults hk, rfl⟩⟩, fun f h => ⟨exec_fault_ne_fetch h, ?record⟩⟩,
    fun s hf hs => ⟨⟨?fetchCause, fun hpc => ⟨_, fetchOutOfRangeFaults s hf hs hpc, rfl⟩⟩, fun f h => ?stepRecord⟩⟩
  case memCause =>
    rintro ⟨f, h, hkind⟩
    rcases exec_fault_cause h with ⟨-, hm⟩ | ⟨hk, -⟩
    · exact hm
    · cases hkind.symm.trans hk
  case keyCause =>
    rintro ⟨f, h, hkind⟩
    rcases exec_fault_cause h with ⟨hm, -⟩ | ⟨-, hk⟩
    · cases hkind.symm.trans hm
    · exact hk
  case record => rw [exec_fault h]; rfl
  case fetchCause =>
    rintro ⟨f, h, hkind⟩
    by_contra hpc
    rw [step_of_nil hf hs, instrStep_inside (Nat.not_lt.mp hpc)] at h
    exact exec_fault_ne_fetch h hkind
  case stepRecord => rw [step_fault h]

/-- Settles O16: at SP = 0 and SP = 16 the two stack instructions report, and with SP legal those are the only reports. -/
theorem errorReports : Obligations.ErrorReports := by
  intro s hsp
  refine ⟨fun nnn => exec_call_of_eq_zero nnn, fun h16 => exec_ret_of_ge (by simp [h16]), fun i t h hcall hret => ?_⟩
  have hroom : i = .ret → s.sp.toNat < 16 := fun hi =>
    Nat.lt_of_le_of_ne hsp fun h16 => hret hi (BitVec.eq_of_toNat_eq h16)
  exact exec_keeps_errlog h hcall hroom

end Sys2Proof.Machine
end

section
/-! SUPPORT. What the environment's transactions, a step and a load leave of the configuration; the loaded image region by region;
and the jump to an address and back (70_reset_and_hazards.md R261, R262, R270). -/

namespace Sys2Proof.Machine

/-- A step leaves either its next state or the state of its fault (40_cycle.md R104). -/
theorem settle_cases (s : State) : step s = .next (settle s) ∨ ∃ f, step s = .fault f ∧ settle s = f.final := by
  unfold settle
  rcases h : step s with t | f | r
  · exact .inl rfl
  · exact .inr ⟨f, rfl, rfl⟩
  · exact absurd h (stepNeverRefuses s r)

/-- No step that completes writes the configuration (10_state.md R34). -/
theorem step_keeps_legacy {s t : State} (h : step s = .next t) : t.legacy = s.legacy := by
  rcases step_next h with ⟨_, _, _, _, _, rfl⟩ | ⟨-, h⟩
  · rfl
  · obtain ⟨-, -, -, hlegacy, -⟩ := environment_not_mem_mayWrite (legacy := s.legacy) (i := decode s.fetchWord)
    exact (exec_frame h).legacy hlegacy

/-- A transaction of the environment keeps the configuration if its effect does. -/
theorem unlessFaulted_keeps_legacy (s : State) {act : State → State} (hact : (act s).legacy = s.legacy) :
    (unlessFaulted s act).legacy = s.legacy := by
  cases hf : s.fault with
  | none => rw [unlessFaulted_of_none hf, hact]
  | some r => rw [unlessFaulted_of_some hf]

/-- A load that completes had a ROM that fits, and its state is that of reset but for memory and the configuration (R262). -/
theorem load_next {legacy : Bool} {memInit : Nat → Byte} {font : Vector Byte 80} {rom : Option (List Byte)} {t : State}
    (h : load legacy memInit font rom = .next t) : ∃ bytes, rom = some bytes ∧ bytes.length ≤ 3584 ∧
      t = { State.reset with mem := Memory.ofImage (loadImage memInit font bytes) 0x1000, legacy := legacy } := by
  cases rom with
  | none => cases h
  | some bytes =>
    rcases Nat.lt_or_ge 3584 bytes.length with hlong | hfits
    · cases (load_of_too_long legacy memInit font hlong).symm.trans h
    · cases (load_of_fits legacy memInit font hfits).symm.trans h
      exact ⟨bytes, rfl, hfits, rfl⟩

/-- The byte at an address of the loaded state is that of the image (R262). -/
theorem byteAt_loaded (image : Nat → Byte) (legacy : Bool) {a : Nat} (ha : a ≤ 0xFFF) :
    { State.reset with mem := Memory.ofImage image 0x1000, legacy := legacy }.byteAt a = image a := by
  rw [State.byteAt, read_loaded image ha]

/-- The state after reset meets the invariants with any canonical memory and any configuration (10_state.md R40). -/
theorem inv_reset_with_mem {m : Memory} (hm : m.wf) (legacy : Bool) :
    { State.reset with mem := m, legacy := legacy }.Inv :=
  ⟨hm, resetMeetsInvariants.spLegal, resetMeetsInvariants.pcBounded⟩

section
variable (memInit : Nat → Byte) (font : Vector Byte 80) (rom : List Byte)

/-- The image holds the font at 0x050..0x09F, whatever the ROM (R262). -/
theorem loadImage_font {k : Nat} (h : k < 80) : loadImage memInit font rom (0x050 + k) = font[k] := by
  unfold loadImage
  rw [if_neg (by omega), dif_pos (by omega)]
  simp only [Nat.add_sub_cancel_left]

/-- The image holds the ROM from `PROG_BASE` up (R262). -/
theorem loadImage_rom {k : Nat} (h : k < rom.length) : loadImage memInit font rom (0x200 + k) = rom[k] := by
  unfold loadImage
  rw [if_pos (by omega), Nat.add_sub_cancel_left, List.getD_eq_getElem _ _ h]

/-- Outside the font and the ROM the image is `MEM_INIT` (R262, R265). -/
theorem loadImage_elsewhere {a : Nat} (hfont : ¬ (0x050 ≤ a ∧ a < 0x0A0)) (hrom : ¬ (0x200 ≤ a ∧ a < 0x200 + rom.length)) :
    loadImage memInit font rom a = memInit a := by
  unfold loadImage
  rw [if_neg hrom, dif_neg hfont]

end

/-- The word 1NNN decodes to the jump to NNN (30_encoding.md R74). -/
theorem decode_jump (nnn : Addr12) : decode (formatA 0x1 nnn) = .jp nnn := decode_encode (i := .jp nnn) rfl

/-- A jump to the address of its own fetch undoes the fetch (41_control_flow.md R124). -/
theorem exec_jp_of_fetched {s : State} {nnn : Addr12} (h : nnn.toNat = s.pc.toNat) :
    exec (.jp nnn) (s.setPc (s.pc + 2)) = .next s := by
  have hpc : addrWord nnn = s.pc := BitVec.eq_of_toNat_eq ((toNat_addrWord nnn).trans h)
  calc exec (.jp nnn) (s.setPc (s.pc + 2))
    _ = .next (s.setPc (addrWord nnn)) := rfl
    _ = .next s := by rw [hpc]; rfl

end Sys2Proof.Machine
end

section
/-! Reset, loading and the parked state (70_reset_and_hazards.md). -/

namespace Sys2Proof.Machine

/-- Settles O22: no instruction, tick or input update writes `LEGACY`, a fault keeps it, and a load takes it as given. -/
theorem stepKeepsConfiguration : Obligations.StepKeepsConfiguration := by
  refine ⟨fun s h r => ⟨?step, unlessFaulted_keeps_legacy s rfl, unlessFaulted_keeps_legacy s rfl⟩,
    fun legacy memInit font rom t hload => ?load⟩
  case step =>
    rcases settle_cases s with hnext | ⟨f, hfault, hfinal⟩
    · exact step_keeps_legacy hnext
    · rw [hfinal, step_fault hfault]
  case load =>
    obtain ⟨_, -, -, rfl⟩ := load_next hload
    rfl

/-- Settles O23: the loaded memory is canonical, and a load leaves SP, PC and the stack as after reset. -/
theorem loadMeetsInvariants : Obligations.LoadMeetsInvariants := by
  intro legacy memInit font rom t hload
  obtain ⟨_, -, -, rfl⟩ := load_next hload
  exact inv_reset_with_mem (wf_loaded _) legacy

/-- Settles O12: the fetch moves PC past the jump, and the jump puts it back. -/
theorem parkedStateStepsToItself : Obligations.ParkedStateStepsToItself := by
  rintro s hf hs ⟨hpc, nnn, hword, hself⟩
  calc step s
    _ = exec (decode s.fetchWord) (s.setPc (s.pc + 2)) := (step_of_nil hf hs).trans (instrStep_inside hpc)
    _ = exec (.jp nnn) (s.setPc (s.pc + 2)) := by rw [hword, decode_jump]
    _ = .next s := exec_jp_of_fetched hself

/-- Settles O59: the registers and the stack are zero vectors, the frame is the clear one, and the latch words are zero. -/
theorem resetValues : Obligations.ResetValues :=
  ⟨fun r => Vector.getElem_replicate r.isLt, rfl, rfl, rfl, fun _ hj => Vector.getElem_replicate hj, rfl, rfl,
    fun x y _ _ => pixelAt_clearFrame x y, fun _ _ => ⟨BitVec.getLsbD_zero, BitVec.getLsbD_zero⟩, rfl, rfl⟩

/-- Settles O60: the loaded memory reads as its image, which is the font, the ROM or `MEM_INIT` by region. -/
theorem loadPlacesImage : Obligations.LoadPlacesImage := by
  intro legacy memInit font rom
  refine ⟨fun hfits => ⟨_, load_of_fits legacy memInit font hfits, rfl, fun k hk => ?font, fun k hk => ?rom,
    fun a ha hfont hrom => ?elsewhere, ?frame⟩, load_of_too_long legacy memInit font, rfl⟩
  case font => exact (byteAt_loaded _ legacy (by omega)).trans (loadImage_font memInit font rom hk)
  case rom => exact (byteAt_loaded _ legacy (by omega)).trans (loadImage_rom memInit font rom hk)
  case elsewhere => exact (byteAt_loaded _ legacy ha).trans (loadImage_elsewhere memInit font rom hfont hrom)
  case frame => constructor <;> simp

end Sys2Proof.Machine
end
